-- ==== Sys2Proof/Word.lean ====
section
/-! DEFINITION. The word types of the block (spec 00_scope.md rules R10, R11): a "word" is 32 bits,
a "byte" is 8 bits, every integer is unsigned, and a byte string is a list with index 0 first. -/

namespace Sys2Proof

/-- A 32-bit word (R10): one register, one bus transfer, one chaining word. -/
abbrev Word := BitVec 32

/-- An 8-bit byte (R10). -/
abbrev Byte := BitVec 8

/-- A 64-bit quantity: only the message bit count DLEN is one (R26). -/
abbrev DWord := BitVec 64

/-- A byte string (R11): index 0 is the first byte, `X ‖ Y` is `X ++ Y`, `len(B)` is `B.length`. -/
abbrev Bytes := List Byte

end Sys2Proof
end

