-- ==== Sys2Proof/Syntax.lean ====
section
/-! DEFINITION. The seventeen commands of the block (spec 30_encoding.md R84), one constructor per
row of spec/opcode_table.json. All operands but ARG are implicit (R82). -/

namespace Sys2Proof

/-- A command of the block (R84). `drvAddr` and `drvWif` carry the one explicit operand there is,
the 8-bit immediate ARG, used as a byte as it stands (R81, R82). -/
inductive Instr where
  | d160Init               -- D160.INIT    R130
  | d160Update             -- D160.UPDATE  R131
  | d160Final              -- D160.FINAL   R132
  | d160Digest             -- D160.DIGEST  R133
  | b58Enc                 -- B58.ENC      R155
  | b58Dec                 -- B58.DEC      R156
  | chkAttach              -- CHK.ATTACH   R157
  | chkVerify              -- CHK.VERIFY   R158
  | kfFormat               -- KF.FORMAT    R171
  | kfCompress             -- KF.COMPRESS  R172
  | drvAddr (arg : Byte)   -- DRV.ADDR #aa R180
  | drvWif (arg : Byte)    -- DRV.WIF #aa  R181
  | impWif                 -- IMP.WIF      R182
  | xfer                   -- XFER         R190
  | clrerr                 -- CLRERR       R192
  | iclr                   -- ICLR         R191
  | extH256                -- EXT.H256     R193
  deriving DecidableEq, Repr

end Sys2Proof
end

