-- ==== Sys2Proof/WellFormed.lean ====
section
/-! DEFINITION. What it takes to be a well-formed command. The three checks the spec makes are on
the fields of the 32-bit command word (spec 30_encoding.md R81, R83): the reserved field, the
opcode and the unused immediate. A term of `Instr` passes them by its type: its opcode is its
constructor, its reserved field does not exist, and ARG is a byte only where the command has one.
`decode` accepts exactly the words whose fields are well formed. -/

namespace Sys2Proof

/-- The three fields of a command word (R81): `RSV = v[31:16]`, `ARG = v[15:8]`, `OPC = v[7:0]`. -/
structure Fields where
  rsv : BitVec 16
  arg : Byte
  opc : Byte
  deriving DecidableEq, Repr

/-- The seventeen assigned opcodes, in the order R84 lists them. -/
def assignedOpcodes : List Byte :=
  [0x01, 0x02, 0x03, 0x04,
   0x10, 0x11, 0x12, 0x13,
   0x20, 0x21,
   0x30, 0x31, 0x32,
   0x40, 0x41, 0x42,
   0x50]

/-- Check (a) of R83: the reserved field is zero. -/
def Fields.reservedZero (f : Fields) : Bool := f.rsv == 0

/-- Check (b) of R83: the opcode is one of the seventeen of R84. -/
def Fields.opcodeAssigned (f : Fields) : Bool := assignedOpcodes.contains f.opc

/-- Check (c) of R83: ARG is zero unless the opcode is 0x30 or 0x31. -/
def Fields.argAllowed (f : Fields) : Bool := f.opc == 0x30 || f.opc == 0x31 || f.arg == 0

/-- The fields of a legal command word: all three checks of R83 pass. -/
def Fields.wf (f : Fields) : Bool := f.reservedZero && f.opcodeAssigned && f.argAllowed

/-- The fields a command stands for (R81, R84). -/
def Instr.fields : Instr → Fields
  | .d160Init => ⟨0, 0, 0x01⟩
  | .d160Update => ⟨0, 0, 0x02⟩
  | .d160Final => ⟨0, 0, 0x03⟩
  | .d160Digest => ⟨0, 0, 0x04⟩
  | .b58Enc => ⟨0, 0, 0x10⟩
  | .b58Dec => ⟨0, 0, 0x11⟩
  | .chkAttach => ⟨0, 0, 0x12⟩
  | .chkVerify => ⟨0, 0, 0x13⟩
  | .kfFormat => ⟨0, 0, 0x20⟩
  | .kfCompress => ⟨0, 0, 0x21⟩
  | .drvAddr a => ⟨0, a, 0x30⟩
  | .drvWif a => ⟨0, a, 0x31⟩
  | .impWif => ⟨0, 0, 0x32⟩
  | .xfer => ⟨0, 0, 0x40⟩
  | .clrerr => ⟨0, 0, 0x41⟩
  | .iclr => ⟨0, 0, 0x42⟩
  | .extH256 => ⟨0, 0, 0x50⟩

/-- A command is well formed when its fields are (every command is: `Sys2Proof.Laws`). -/
def Instr.wf (i : Instr) : Bool := i.fields.wf

end Sys2Proof
end

