-- ==== Sys2Proof/Decode.lean ====
section
/-! DEFINITION. The command word (spec 30_encoding.md R81 to R85): decoding any 32-bit value, with
a name for every rejection, and the encoder. -/

namespace Sys2Proof

/-- The fields of a command word: `OPC = v[7:0]`, `ARG = v[15:8]`, `RSV = v[31:16]` (R81). -/
def fieldsOf (v : Word) : Fields where
  rsv := v.extractLsb' 16 16
  arg := v.extractLsb' 8 8
  opc := v.extractLsb' 0 8

/-- Why a command word is illegal (R83 a, b, c). -/
inductive DecodeError where
  | reservedBits
  | unassignedOpcode
  | argNotZero
  deriving DecidableEq, Repr

/-- The command of an opcode, and whether it takes ARG (R84); none for an unassigned opcode. -/
def commandOf (opc arg : Byte) : Option (Instr × Bool) :=
  match opc.toNat with
  | 0x01 => some (.d160Init, false)
  | 0x02 => some (.d160Update, false)
  | 0x03 => some (.d160Final, false)
  | 0x04 => some (.d160Digest, false)
  | 0x10 => some (.b58Enc, false)
  | 0x11 => some (.b58Dec, false)
  | 0x12 => some (.chkAttach, false)
  | 0x13 => some (.chkVerify, false)
  | 0x20 => some (.kfFormat, false)
  | 0x21 => some (.kfCompress, false)
  | 0x30 => some (.drvAddr arg, true)
  | 0x31 => some (.drvWif arg, true)
  | 0x32 => some (.impWif, false)
  | 0x40 => some (.xfer, false)
  | 0x41 => some (.clrerr, false)
  | 0x42 => some (.iclr, false)
  | 0x50 => some (.extH256, false)
  | _ => none

/-- Decode a command word (R85: total, and never dependent on state). The three word checks are
made in the order of R83: reserved bits, opcode, ARG. -/
def decode (v : Word) : Except DecodeError Instr :=
  let f := fieldsOf v
  if f.rsv ≠ 0 then .error .reservedBits
  else match commandOf f.opc f.arg with
    | none => .error .unassignedOpcode
    | some (i, takesArg) => if takesArg ∨ f.arg = 0 then .ok i else .error .argNotZero

/-- The command word of a command, as R84 prints it (`aa` in bits 15:8). -/
def encode : Instr → Word
  | .d160Init => 0x00000001
  | .d160Update => 0x00000002
  | .d160Final => 0x00000003
  | .d160Digest => 0x00000004
  | .b58Enc => 0x00000010
  | .b58Dec => 0x00000011
  | .chkAttach => 0x00000012
  | .chkVerify => 0x00000013
  | .kfFormat => 0x00000020
  | .kfCompress => 0x00000021
  | .drvAddr a => 0x00000030 ||| (a.zeroExtend 32 <<< 8)
  | .drvWif a => 0x00000031 ||| (a.zeroExtend 32 <<< 8)
  | .impWif => 0x00000032
  | .xfer => 0x00000040
  | .clrerr => 0x00000041
  | .iclr => 0x00000042
  | .extH256 => 0x00000050

/-- The instruction the decoder reads from a row's bits, numbered as spec/opcode_table.json
numbers them. A command word has no byte order: the bus moves it whole (20_memory.md R57), so bit
`k` of `w` is bit `k` of the word. A value that is not one 32-bit word is no command word. -/
def decodeTableWord (nbits w : Nat) : Option Instr :=
  if nbits ≤ 32 ∧ w < 2 ^ nbits then (decode (BitVec.ofNat 32 w)).toOption else none

end Sys2Proof
end

