-- ==== Sys2Proof/Machine/Bytes.lean ====
section
/-! DEFINITION. Byte-order helpers and radix conversion over byte strings (spec 00_scope.md R11,
R12, R13). -/

namespace Sys2Proof.Machine

/-- `LE32(w) = [w[7:0], w[15:8], w[23:16], w[31:24]]` (R12). -/
def le32 (w : Word) : Bytes :=
  [w.extractLsb' 0 8, w.extractLsb' 8 8, w.extractLsb' 16 8, w.extractLsb' 24 8]

/-- `LEW(B) = B[0] + 2^8*B[1] + 2^16*B[2] + 2^24*B[3]`, for a string of 4 bytes (R12). -/
def lew (B : Bytes) : Word :=
  BitVec.ofNat 32 ((B.getD 0 0).toNat + 2 ^ 8 * (B.getD 1 0).toNat
    + 2 ^ 16 * (B.getD 2 0).toNat + 2 ^ 24 * (B.getD 3 0).toNat)

/-- `LE64(n) = LE32(n[31:0]) ‖ LE32(n[63:32])` (R12). -/
def le64 (n : DWord) : Bytes := le32 (n.extractLsb' 0 32) ++ le32 (n.extractLsb' 32 32)

/-- `rol32(x, n)`: rotation toward the most significant bit, for 1 <= n <= 31 (R13). -/
def rol32 (x : Word) (n : Nat) : Word := (x <<< n) ||| (x >>> (32 - n))

/-- `BE(B)`: the unsigned big-endian integer of a byte string; `BE([]) = 0` and
`BE(B ‖ [b]) = 256*BE(B) + b` (R12). -/
def be (B : Bytes) : Nat := B.foldl (fun n b => 256 * n + b.toNat) 0

/-- The digits of `n` in base `b`, most significant first, put before `acc`: divide by `b` and
prepend the remainder while `n > 0` (R12, R151), for at most `fuel` divisions. -/
def digitsLoop (b : Nat) : Nat → Nat → List Nat → List Nat
  | 0, _, acc => acc
  | fuel + 1, n, acc => if n = 0 then acc else digitsLoop b fuel (n / b) (n % b :: acc)

/-- The digits of `n` in base `b >= 2`, most significant first, none for `n = 0`. The fuel, one
more than the position of the top bit of `n`, is always enough. -/
def digitsOf (b n : Nat) : List Nat := digitsLoop b (n.log2 + 1) n []

/-- `MinBE(n)`: the shortest byte string whose big-endian value is `n`; `MinBE(0) = []` (R12). -/
def minBE (n : Nat) : Bytes := (digitsOf 256 n).map (BitVec.ofNat 8)

/-- How many copies of `c` a byte string begins with (R151, R152). -/
def leading (c : Byte) (B : Bytes) : Nat := (B.takeWhile (· == c)).length

end Sys2Proof.Machine
end

