-- ==== Sys2Proof/Config.lean ====
section
/-! DEFINITION. The two parameters of the block the spec leaves open (spec 92_eei_decisions.md
section 1), the buffer capacity BUFCAP (00_scope.md R8) and the external 256-bit digest H256 (R7,
R59), and the host's parameter CURVE_ORDER (48_host_context.md R203). All are opaque constants
without a body, so that every claim about the model holds for every value the spec allows them. -/

namespace Sys2Proof.Config

/-- By how much BUFCAP exceeds its least value 128; any of 0 to 3968, so that BUFCAP is any of
128 to 4096 (R8). No body: nothing can be proved about which (assumption log, entry 1). -/
opaque bufcapExtra : Fin 3969

/-- BUFCAP, the capacity in bytes of each of IBUF and OBUF (R8): `128 <= BUFCAP <= 4096`. -/
def bufcap : Nat := bufcapExtra.val + 128

/-- H256, the external 256-bit digest (R7): a total, deterministic function from any finite byte
string to exactly 32 bytes. No body: no rule depends on which function it is (log entry 2). -/
opaque h256Vector : List Byte → Vector Byte 32

/-- `H256(B)` as a byte string (R7, R59). -/
def h256 (B : Bytes) : Bytes := (h256Vector B).toList

/-- One less than the curve order, up to the range of a 256-bit constant (log entry 9). No body. -/
opaque curveOrderSeed : BitVec 256

/-- CURVE_ORDER, a parameter of the host (48_host_context.md R203: "a fixed 256-bit constant", whose
value is not in the source): any of 1 to 2^256 - 1. No rule of the block uses it. -/
def curveOrder : Nat := curveOrderSeed.toNat % (2 ^ 256 - 1) + 1

end Sys2Proof.Config
end

