-- ==== Sys2Proof/Machine/State.lean ====
section
/-! DEFINITION. The state of the block and of the host that drives it (spec 10_state.md R20 to R45),
as plain data, and the state right after reset (R45, 70_reset_and_hazards.md R250). -/

namespace Sys2Proof.Machine

/-- Five 32-bit words: the chaining state H[0..4] (R21). -/
structure Chain where
  h0 : Word
  h1 : Word
  h2 : Word
  h3 : Word
  h4 : Word
  deriving DecidableEq, Repr

/-- The initial chaining value IV (40_digest160.md R111). -/
def Chain.iv : Chain := ⟨0x67452301, 0xEFCDAB89, 0x98BADCFE, 0x10325476, 0xC3D2E1F0⟩

/-- The digest stream (H, TAIL, DLEN) of R125: the chaining words (R21), the bytes absorbed since
the last compression (R25) and the message bit count (R26). -/
structure Stream where
  h : Chain
  tail : Bytes
  dlen : DWord
  deriving DecidableEq, Repr

/-- The initialised stream: after reset (R45) and after D160.INIT (R130). -/
def Stream.initial : Stream := ⟨Chain.iv, [], 0⟩

/-- One move of the host (20_memory.md R50): a read or a write of `width` bytes at byte offset
`off` from the block's base address, or the platform's reset (R250). Only width 4 exists for the
block; the other widths can be asked for, and are bus errors (R53 a). -/
inductive HostMove where
  | read (width off : Nat)
  | write (width off : Nat) (v : Word)
  | reset
  deriving DecidableEq, Repr

/-- What a transaction answers the host (R50, 60_exceptions.md R235): a write completed, the
value of a read, or the error response, which carries no data. -/
inductive Response where
  | done
  | value (v : Word)
  | busError
  deriving DecidableEq, Repr

/-- What the host's program does with a bus error response, which is outside the spec (R235,
93_implementation_defined.md U12): it goes on with its next transaction, or its run ends there.
DESIGN CHOICE (log 4): both are modelled, and no claim may assume one. -/
inductive BusErrorPolicy where
  | goesOn
  | stops
  deriving DecidableEq, Repr

/-- The host side, the model's own (R24, log 3): the moves not issued yet (oldest first), the
answer to the last transaction, and the host's policy on bus errors. -/
structure HostSide where
  pending : List HostMove
  response : Option Response
  onBusError : BusErrorPolicy
  deriving DecidableEq, Repr

/-- The state: the block's tuple of R20 and the host side. `ibuf` is the input string
IN = IBUF[0..ILEN-1] and `obuf` the output string OBUF[0..OLEN-1]; ILEN and OLEN are their
lengths (R30 to R33; bytes beyond them are unreachable, U7). -/
structure State where
  stream : Stream
  ibuf : Bytes
  obuf : Bytes
  errCode : Byte
  errf : Bool
  host : HostSide
  deriving DecidableEq, Repr

/-- The kinds of error a command can end with (60_exceptions.md R220). -/
inductive ErrKind where
  | invalidLength
  | invalidFormat
  | invalidSymbol
  | checksumMismatch
  | unsupportedOperation
  | illegalCommand
  | capacityExceeded
  deriving DecidableEq, Repr

/-- The registers, ports and window words of the address map (20_memory.md R52). -/
inductive Reg where
  | cmd
  | status
  | err
  | ilen
  | olen
  | cap
  | ipush
  | h (i : Fin 5)
  | dlenLo
  | dlenHi
  | obufWord (i : Nat)
  deriving DecidableEq, Repr

/-- The two writable ports (R35, R36, R55). -/
inductive WritePort where
  | cmd
  | ipush
  deriving DecidableEq, Repr

/-- The eight cases in which a transaction is a bus error (20_memory.md R53 a to h). -/
inductive BusCause where
  | width
  | misaligned
  | outside
  | reserved
  | readOfWriteOnly
  | writeToReadOnly
  | beyondOlen
  | inputFull
  deriving DecidableEq, Repr

/-- Why a step can stop. -/
inductive Fault where
  /-- Raised by a bus error (R53, R235) of a host whose policy is `stops`: the host's program ends
  there (U12: "a model treats a bus error as a fault of the host program and may end the run
  there"). Safe: the block's state is unchanged, and a host that goes on is modelled too (log 4). -/
  | busError (cause : BusCause)
  deriving DecidableEq, Repr

/-- Why an instruction can be refused. -/
inductive Refusal where
  /-- Raised by an arm of `exec` whose instruction has no meaning yet. Safe: nothing can be proved
  of a run that gets there. No arm of this model raises it. -/
  | notModelled (mnemonic : String)
  deriving DecidableEq, Repr

/-- What a step or a meaning answers. -/
abbrev Result := Host.Outcome State Fault Refusal

/-- The state after reset (R45, R250): the stream initialised, both buffers empty, no error. The
host side has issued nothing and has nothing to issue; its policy is DESIGN CHOICE (logs 3, 4). -/
def State.reset : State where
  stream := Stream.initial
  ibuf := []
  obuf := []
  errCode := 0
  errf := false
  host := { pending := [], response := none, onBusError := .goesOn }

end Sys2Proof.Machine
end

