-- ==== Sys2Proof/Machine/Flags.lean ====
section
/-! DEFINITION. The block's only flag and its error code: the numbers of the error kinds (spec
60_exceptions.md R220) and the registers ERR and STATUS that show them (10_state.md R28, R29). -/

namespace Sys2Proof.Machine

/-- The code of an error kind (R220). -/
def ErrKind.code : ErrKind → Byte
  | .invalidLength => 1
  | .invalidFormat => 2
  | .invalidSymbol => 3
  | .checksumMismatch => 4
  | .unsupportedOperation => 5
  | .illegalCommand => 6
  | .capacityExceeded => 7

/-- ERR: CODE in bits 7:0, bits 31:8 read as 0 (R28). -/
def State.errReg (s : State) : Word := s.errCode.zeroExtend 32

/-- STATUS: ERRF in bit 0, bits 31:1 read as 0 (R29). -/
def State.statusReg (s : State) : Word := if s.errf then 1 else 0

end Sys2Proof.Machine
end

