-- ==== Sys2Proof/Machine/Operands.lean ====
section
/-! DEFINITION. The implicit operands of the commands (spec 00_scope.md R15, 30_encoding.md R82):
the input string IN, the output string, and their lengths. The one explicit operand, ARG, is
carried by the instruction itself and used as a byte as it stands. -/

namespace Sys2Proof.Machine

/-- `IN = IBUF[0..ILEN-1]`, empty when ILEN = 0 (R15, R30). -/
abbrev State.input (s : State) : Bytes := s.ibuf

/-- The output string `OBUF[0..OLEN-1]` (R32). -/
abbrev State.output (s : State) : Bytes := s.obuf

/-- ILEN, the number of meaningful bytes of IBUF (R31). -/
abbrev State.ilen (s : State) : Nat := s.ibuf.length

/-- OLEN, the number of meaningful bytes of OBUF (R33). -/
abbrev State.olen (s : State) : Nat := s.obuf.length

/-- `OUT <- B`: `OBUF[0..len(B)-1] <- B; OLEN <- len(B)` (R15). -/
def State.setOutput (s : State) (B : Bytes) : State := { s with obuf := B }

/-- The digest stream (H, TAIL, DLEN) written (R82). -/
def State.setStream (s : State) (st : Stream) : State := { s with stream := st }

/-- The input string written: only XFER, ICLR and an IPUSH write do it (R30). -/
def State.setInput (s : State) (B : Bytes) : State := { s with ibuf := B }

end Sys2Proof.Machine
end

