-- ==== Sys2Proof/Machine/Ops.lean ====
section
/-! DEFINITION. The shared operations over the state: how a command succeeds and how it fails (the
block's only exception, spec 60_exceptions.md R229, R230), appending to the input buffer
(10_state.md R36), the register map (20_memory.md R52) and what a register reads as. -/

namespace Sys2Proof.Machine

/-- A command that succeeds: `ERR.CODE <- 0`, STATUS.ERRF left as it was (R229). -/
def State.succeed (s : State) : State := { s with errCode := 0 }

/-- `raise Fail(c)`, the one exception of the block (R230): `ERR.CODE <- c; STATUS.ERRF <- 1` and
nothing else. There is no vector, no saved context and no handler. -/
def State.raiseFail (s : State) (k : ErrKind) : State := { s with errCode := k.code, errf := true }

/-- There is no return from an error (R232): the next command runs as if the failed one had not
been issued. What a caller can do is clear the record of it (44_buffer_system.md R192):
`STATUS.ERRF <- 0; ERR.CODE <- 0`. -/
def State.clearError (s : State) : State := { s with errCode := 0, errf := false }

/-- `OUT <- B; ERR.CODE <- 0`: the end of a successful output-producing command (R15, R229). -/
def State.deliver (s : State) (B : Bytes) : State := (s.setOutput B).succeed

/-- A successful IPUSH write: `IBUF[ILEN] <- v[7:0]; ILEN <- ILEN + 1`, bits 31:8 ignored (R36). -/
def State.push (s : State) (v : Word) : State := s.setInput (s.ibuf ++ [v.extractLsb' 0 8])

/-- The host side answered (R50). -/
def State.respond (s : State) (r : Response) : State :=
  { s with host := { s.host with response := some r } }

/-- H[i] (R14). -/
def Chain.get (c : Chain) (i : Fin 5) : Word :=
  match i with
  | 0 => c.h0
  | 1 => c.h1
  | 2 => c.h2
  | 3 => c.h3
  | 4 => c.h4

/-- The address map (R52): what stands at a byte offset of the aperture; none where the offset is
reserved (10_state.md R40) or names no word. -/
def regAt (off : Nat) : Option Reg :=
  match off with
  | 0x0000 => some .cmd
  | 0x0004 => some .status
  | 0x0008 => some .err
  | 0x000C => some .ilen
  | 0x0010 => some .olen
  | 0x0014 => some .cap
  | 0x0018 => some .ipush
  | 0x0020 => some (.h 0)
  | 0x0024 => some (.h 1)
  | 0x0028 => some (.h 2)
  | 0x002C => some (.h 3)
  | 0x0030 => some (.h 4)
  | 0x0034 => some .dlenLo
  | 0x0038 => some .dlenHi
  | _ => if 0x4000 ≤ off ∧ off < 0x8000 ∧ off % 4 = 0 then some (.obufWord ((off - 0x4000) / 4))
         else none

/-- What R53 (a) to (c) ask of every transaction: 32 bits wide, aligned, inside the aperture. The
width is counted in bytes, as in `MemRead(off, 4)` (R50). -/
def accessFault (width off : Nat) : Option BusCause :=
  if width ≠ 4 then some .width
  else if off % 4 ≠ 0 then some .misaligned
  else if 0x8000 ≤ off then some .outside
  else none

/-- The value a read of a register returns, or why it is a bus error (10_state.md R28 to R39,
20_memory.md R53 e, g). Reads change nothing (R55). -/
def readReg (s : State) : Reg → Except BusCause Word
  | .cmd => .error .readOfWriteOnly
  | .status => .ok s.statusReg
  | .err => .ok s.errReg
  | .ilen => .ok (BitVec.ofNat 32 s.ilen)
  | .olen => .ok (BitVec.ofNat 32 s.olen)
  | .cap => .ok (BitVec.ofNat 32 Config.bufcap)
  | .ipush => .error .readOfWriteOnly
  | .h i => .ok (s.stream.h.get i)
  | .dlenLo => .ok (s.stream.dlen.extractLsb' 0 32)
  | .dlenHi => .ok (s.stream.dlen.extractLsb' 32 32)
  | .obufWord i => match s.obuf[i]? with
    | some b => .ok (b.zeroExtend 32)
    | none => .error .beyondOlen

/-- `MemRead(off, width)`: a 32-bit value, or the cause of the bus error (R50, R53, R235). -/
def memRead (s : State) (width off : Nat) : Except BusCause Word :=
  match accessFault width off with
  | some c => .error c
  | none => match regAt off with
    | none => .error .reserved
    | some r => readReg s r

/-- Which port a write of a register reaches, or why it is a bus error (R53 f, h). A write of CMD
never is one. -/
def writePort (s : State) : Reg → Except BusCause WritePort
  | .cmd => .ok .cmd
  | .ipush => if s.ilen < Config.bufcap then .ok .ipush else .error .inputFull
  | .status => .error .writeToReadOnly
  | .err => .error .writeToReadOnly
  | .ilen => .error .writeToReadOnly
  | .olen => .error .writeToReadOnly
  | .cap => .error .writeToReadOnly
  | .h _ => .error .writeToReadOnly
  | .dlenLo => .error .writeToReadOnly
  | .dlenHi => .error .writeToReadOnly
  | .obufWord _ => .error .writeToReadOnly

/-- The port a `MemWrite(off, width, v)` reaches, or the cause of the bus error (R50, R53). -/
def memWritePort (s : State) (width off : Nat) : Except BusCause WritePort :=
  match accessFault width off with
  | some c => .error c
  | none => match regAt off with
    | none => .error .reserved
    | some r => writePort s r

end Sys2Proof.Machine
end

