-- ==== Sys2Proof/Machine/Base58.lean ====
section
/-! DEFINITION. The base-58 converter (spec 41_base58check.md R150 to R152, R154, R159) and the two
commands B58.ENC (R155) and B58.DEC (R156). -/

namespace Sys2Proof.Machine

/-- The 58 symbols as ASCII bytes; the symbol at position d has digit value d (R150). -/
def alphabet : Bytes :=
  [0x31, 0x32, 0x33, 0x34, 0x35, 0x36, 0x37, 0x38, 0x39] ++
  [0x41, 0x42, 0x43, 0x44, 0x45, 0x46, 0x47, 0x48] ++
  [0x4A, 0x4B, 0x4C, 0x4D, 0x4E] ++
  [0x50, 0x51, 0x52, 0x53, 0x54, 0x55, 0x56, 0x57, 0x58, 0x59, 0x5A] ++
  [0x61, 0x62, 0x63, 0x64, 0x65, 0x66, 0x67, 0x68, 0x69, 0x6A, 0x6B] ++
  [0x6D, 0x6E, 0x6F, 0x70, 0x71, 0x72, 0x73, 0x74, 0x75, 0x76, 0x77, 0x78, 0x79, 0x7A]

/-- `Sym(d)`: the symbol of digit value d, 0 <= d <= 57 (R150). -/
def sym (d : Nat) : Byte := alphabet.getD d 0

/-- `Val(c)`: the digit value of a byte, none when it is not in the alphabet (R150). -/
def val (c : Byte) : Option Nat := alphabet.findIdx? (· == c)

/-- The zero-symbol, '1' (R150). -/
def zeroSymbol : Byte := 0x31

/-- `B58Enc(B)` (R151): a zero-symbol for every leading zero byte, then the base-58 digits of the
big-endian integer, none for the value 0. -/
def b58Enc (B : Bytes) : Bytes :=
  List.replicate (leading 0x00 B) zeroSymbol ++ (digitsOf 58 (be B)).map sym

/-- The accumulator of `B58Dec` after the symbols of S, from `n`; none when one is not in the
alphabet (R152). -/
def decodeFrom (n : Nat) : Bytes → Option Nat
  | [] => some n
  | c :: S => match val c with
    | none => none
    | some d => decodeFrom (n * 58 + d) S

/-- `B58Dec(S)` (R152); none is the failure InvalidSymbol. -/
def b58Dec (S : Bytes) : Option Bytes :=
  match decodeFrom 0 S with
  | none => none
  | some n => some (List.replicate (leading zeroSymbol S) 0x00 ++ minBE n)

/-- B58.ENC (R155): fails with CapacityExceeded when the text does not fit OBUF. -/
def execB58Enc (s : State) : Result :=
  let S := b58Enc s.input
  if S.length > Config.bufcap then .next (s.raiseFail .capacityExceeded) else .next (s.deliver S)

/-- B58.DEC (R156): fails with InvalidSymbol when any byte of IN is not in the alphabet. -/
def execB58Dec (s : State) : Result :=
  match b58Dec s.input with
  | none => .next (s.raiseFail .invalidSymbol)
  | some B => .next (s.deliver B)

end Sys2Proof.Machine
end

