-- ==== Sys2Proof/Machine/Buffers.lean ====
section
/-! DEFINITION. The buffer, system and external-digest commands (spec 44_buffer_system.md): XFER
(R190), ICLR (R191), CLRERR (R192) and EXT.H256 (R193). -/

namespace Sys2Proof.Machine

/-- XFER (R190): the output string appended to the input string; fails with CapacityExceeded when
ILEN + OLEN > BUFCAP. -/
def execXfer (s : State) : Result :=
  if s.ilen + s.olen > Config.bufcap then .next (s.raiseFail .capacityExceeded)
  else .next (s.setInput (s.input ++ s.output)).succeed

/-- ICLR (R191): the input string emptied. -/
def execIclr (s : State) : Result := .next (s.setInput []).succeed

/-- CLRERR (R192): the sticky flag cleared. -/
def execClrerr (s : State) : Result := .next s.clearError

/-- EXT.H256 (R193): IN through the external 256-bit digest. -/
def execExtH256 (s : State) : Result := .next (s.deliver (Config.h256 s.input))

end Sys2Proof.Machine
end

