-- ==== Sys2Proof/Machine/Checksum.lean ====
section
/-! DEFINITION. The checksum attachment (spec 41_base58check.md R153) and the two commands
CHK.ATTACH (R157) and CHK.VERIFY (R158). -/

namespace Sys2Proof.Machine

/-- `Check4(B) = H256(H256(B))[0..3]` (R153). -/
def check4 (B : Bytes) : Bytes := (Config.h256 (Config.h256 B)).take 4

/-- `Attach(B) = B ‖ Check4(B)` (R153). -/
def attach (B : Bytes) : Bytes := B ++ check4 B

/-- CHK.ATTACH (R157): fails with CapacityExceeded when ILEN + 4 > BUFCAP. -/
def execChkAttach (s : State) : Result :=
  if s.ilen + 4 > Config.bufcap then .next (s.raiseFail .capacityExceeded)
  else .next (s.deliver (attach s.input))

/-- CHK.VERIFY (R158): with P the input less its last four bytes and C those four bytes, fails with
InvalidLength when there are not four, then with ChecksumMismatch when `Check4(P)` is not C. -/
def execChkVerify (s : State) : Result :=
  let P := s.input.take (s.ilen - 4)
  let C := s.input.drop (s.ilen - 4)
  if s.ilen < 4 then .next (s.raiseFail .invalidLength)
  else if check4 P ≠ C then .next (s.raiseFail .checksumMismatch)
  else .next (s.deliver P)

end Sys2Proof.Machine
end

