-- ==== Sys2Proof/Machine/Digest160.lean ====
section
/-! DEFINITION. The Digest160 unit (spec 40_digest160.md): the compression function, absorbing,
padding and output (R110 to R128), and the four commands D160.INIT, D160.UPDATE, D160.FINAL and
D160.DIGEST (R130 to R133). The tables are the ones the spec prints (marked there as general
knowledge). -/

namespace Sys2Proof.Machine

/-- The five Boolean functions f1 to f5 of R113, numbered from 1; `n` outside 1 to 5 never occurs. -/
def boolFn (n : Nat) (x y z : Word) : Word :=
  match n with
  | 1 => x ^^^ y ^^^ z
  | 2 => (x &&& y) ||| (~~~x &&& z)
  | 3 => (x ||| ~~~y) ^^^ z
  | 4 => (x &&& z) ||| (y &&& ~~~z)
  | _ => x ^^^ (y ||| ~~~z)

/-- `FL(j) = f(i+1)` for sub-round `i = j div 16` (R114). -/
def fMain (j : Nat) : Word → Word → Word → Word := boolFn (j / 16 + 1)

/-- `FR(j) = f(5-i)` (R114). -/
def fPar (j : Nat) : Word → Word → Word → Word := boolFn (5 - j / 16)

/-- The additive constants K of the main chain, by sub-round (R115). -/
def kMain : List Word := [0x00000000, 0x5A827999, 0x6ED9EBA1, 0x8F1BBCDC, 0xA953FD4E]

/-- The additive constants K' of the parallel chain (R115). -/
def kPar : List Word := [0x50A28BE6, 0x5C4DD124, 0x6D703EF3, 0x7A6D76E9, 0x00000000]

/-- The message-word order R of the main chain, sixteen steps a row (R116). -/
def rMain : List Nat :=
  [0, 1, 2, 3, 4, 5, 6, 7, 8, 9, 10, 11, 12, 13, 14, 15] ++
  [7, 4, 13, 1, 10, 6, 15, 3, 12, 0, 9, 5, 2, 14, 11, 8] ++
  [3, 10, 14, 4, 9, 15, 8, 1, 2, 7, 0, 6, 13, 11, 5, 12] ++
  [1, 9, 11, 10, 0, 8, 12, 4, 13, 3, 7, 15, 14, 5, 6, 2] ++
  [4, 0, 5, 9, 7, 12, 2, 10, 14, 1, 3, 8, 11, 6, 15, 13]

/-- The message-word order R' of the parallel chain (R116). -/
def rPar : List Nat :=
  [5, 14, 7, 0, 9, 2, 11, 4, 13, 6, 15, 8, 1, 10, 3, 12] ++
  [6, 11, 3, 7, 0, 13, 5, 10, 14, 15, 8, 12, 4, 9, 1, 2] ++
  [15, 5, 1, 3, 7, 14, 6, 9, 11, 8, 12, 2, 10, 0, 4, 13] ++
  [8, 6, 4, 1, 3, 11, 15, 0, 5, 12, 2, 13, 9, 7, 10, 14] ++
  [12, 15, 10, 4, 1, 5, 8, 7, 6, 2, 13, 14, 0, 3, 9, 11]

/-- The rotation amounts S of the main chain (R117). -/
def sMain : List Nat :=
  [11, 14, 15, 12, 5, 8, 7, 9, 11, 13, 14, 15, 6, 7, 9, 8] ++
  [7, 6, 8, 13, 11, 9, 7, 15, 7, 12, 15, 9, 11, 7, 13, 12] ++
  [11, 13, 6, 7, 14, 9, 13, 15, 14, 8, 13, 6, 5, 12, 7, 5] ++
  [11, 12, 14, 15, 14, 15, 9, 8, 9, 14, 5, 6, 8, 6, 5, 12] ++
  [9, 15, 5, 11, 6, 8, 13, 12, 5, 12, 13, 14, 11, 8, 5, 6]

/-- The rotation amounts S' of the parallel chain (R117). -/
def sPar : List Nat :=
  [8, 9, 9, 11, 13, 15, 15, 5, 7, 7, 8, 11, 14, 14, 12, 6] ++
  [9, 13, 15, 7, 12, 8, 9, 11, 7, 7, 12, 7, 6, 15, 13, 11] ++
  [9, 7, 15, 11, 8, 6, 6, 14, 12, 13, 5, 14, 13, 13, 7, 5] ++
  [15, 5, 8, 11, 14, 14, 6, 14, 6, 9, 12, 9, 12, 5, 15, 8] ++
  [8, 5, 12, 9, 12, 5, 14, 6, 8, 13, 6, 5, 15, 13, 11, 11]

/-- The sixteen message words of a block: `X[i] = LEW(blk[4i..4i+3])` (R112). -/
def blockWords (blk : Bytes) : List Word :=
  (List.range 16).map fun i => lew ((blk.drop (4 * i)).take 4)

/-- The working variables of one chain (R22). -/
structure Work where
  a : Word
  b : Word
  c : Word
  d : Word
  e : Word
  deriving DecidableEq, Repr

/-- One step of a chain (R118), with the step's Boolean function, message word, additive constant
and rotation amount: `T <- rol32(A + f(B,C,D) + X + K, S) + E`, then
`(A,B,C,D,E) <- (E, T, B, rol32(C,10), D)`. -/
def chainStep (f : Word → Word → Word → Word) (x k : Word) (amount : Nat) (w : Work) : Work where
  a := w.e
  b := rol32 (w.a + f w.b w.c w.d + x + k) amount + w.e
  c := w.b
  d := rol32 w.c 10
  e := w.d

/-- Step `j` of the main chain on the message words `X` (R118). -/
def mainStep (X : List Word) (w : Work) (j : Nat) : Work :=
  chainStep (fMain j) (X.getD (rMain.getD j 0) 0) (kMain.getD (j / 16) 0) (sMain.getD j 0) w

/-- Step `j` of the parallel chain (R118). -/
def parStep (X : List Word) (w : Work) (j : Nat) : Work :=
  chainStep (fPar j) (X.getD (rPar.getD j 0) 0) (kPar.getD (j / 16) 0) (sPar.getD j 0) w

/-- The working variables at the start of a chain: a copy of H (R119). -/
def Work.ofChain (h : Chain) : Work := ⟨h.h0, h.h1, h.h2, h.h3, h.h4⟩

/-- The main chain's working variables after its first `n` steps. -/
def mainChain (X : List Word) (h : Chain) (n : Nat) : Work :=
  (List.range n).foldl (mainStep X) (Work.ofChain h)

/-- The parallel chain's working variables after its first `n` steps. -/
def parChain (X : List Word) (h : Chain) (n : Nat) : Work :=
  (List.range n).foldl (parStep X) (Work.ofChain h)

/-- The five combination formulas (R119). -/
def combine (h : Chain) (m p : Work) : Chain where
  h0 := h.h1 + m.c + p.d
  h1 := h.h2 + m.d + p.e
  h2 := h.h3 + m.e + p.a
  h3 := h.h4 + m.a + p.b
  h4 := h.h0 + m.b + p.c

/-- `Compress(H, blk)` (R119): 80 steps in each of two chains, then the combination. -/
def compress (h : Chain) (blk : Bytes) : Chain :=
  let X := blockWords blk
  combine h (mainChain X h 80) (parChain X h 80)

/-- One byte absorbed (R125): `TAIL <- TAIL ‖ [b]; DLEN <- DLEN + 8 (mod 2^64)`; a full block is
compressed and the tail emptied. -/
def absorbByte (st : Stream) (b : Byte) : Stream :=
  let tail := st.tail ++ [b]
  if tail.length = 64 then ⟨compress st.h tail, [], st.dlen + 8⟩
  else ⟨st.h, tail, st.dlen + 8⟩

/-- `Absorb((H, TAIL, DLEN), B)`: the bytes of B one at a time, index 0 first (R125). -/
def absorb (st : Stream) (B : Bytes) : Stream := B.foldl absorbByte st

/-- The count of zero bytes in the padding of a tail of `t` bytes (R126). -/
def padZeros (t : Nat) : Nat := if t ≤ 55 then 55 - t else 119 - t

/-- `Pad(TAIL, DLEN)` (R126). -/
def pad (tail : Bytes) (dlen : DWord) : Bytes :=
  tail ++ [0x80] ++ List.replicate (padZeros tail.length) 0x00 ++ le64 dlen

/-- The digest output: the five words, each little-endian (R56 c, R127). -/
def serialise (h : Chain) : Bytes := le32 h.h0 ++ le32 h.h1 ++ le32 h.h2 ++ le32 h.h3 ++ le32 h.h4

/-- The chaining value after the padded end of the message: one compression, or two when the
padding overflowed into a second block (R127). -/
def finalChain (st : Stream) : Chain :=
  let P := pad st.tail st.dlen
  let h1 := compress st.h (P.take 64)
  if P.length = 128 then compress h1 ((P.drop 64).take 64) else h1

/-- `Finish(H, TAIL, DLEN)` (R127). -/
def finish (st : Stream) : Bytes := serialise (finalChain st)

/-- `Digest160(B) = Finish(Absorb((IV, [], 0), B))` (R128). -/
def digest160 (B : Bytes) : Bytes := finish (absorb Stream.initial B)

/-- D160.INIT (R130). -/
def execD160Init (s : State) : Result := .next (s.setStream Stream.initial).succeed

/-- D160.UPDATE (R131): IN is absorbed, and stays in place. -/
def execD160Update (s : State) : Result := .next (s.setStream (absorb s.stream s.input)).succeed

/-- D160.FINAL (R132): the digest of the message in progress, and a fresh stream. -/
def execD160Final (s : State) : Result :=
  .next ((s.setStream Stream.initial).deliver (finish s.stream))

/-- D160.DIGEST (R133): the digest of IN, and a fresh stream. -/
def execD160Digest (s : State) : Result :=
  .next ((s.setStream Stream.initial).deliver (digest160 s.input))

end Sys2Proof.Machine
end

