-- ==== Sys2Proof/Machine/Derive.lean ====
section
/-! DEFINITION. The derivation chains (spec 43_pipeline.md): DRV.ADDR (R180), DRV.WIF (R181) and
IMP.WIF (R182). -/

namespace Sys2Proof.Machine

/-- The address payload of a compressed key: `[ARG] ‖ Digest160(H256(IN))` (R180). -/
def addressPayload (arg : Byte) (key : Bytes) : Bytes := arg :: digest160 (Config.h256 key)

/-- `B58Enc(p ‖ Check4(p))` for the address payload p (R180). -/
def deriveAddress (arg : Byte) (key : Bytes) : Bytes := b58Enc (attach (addressPayload arg key))

/-- `B58Enc(p ‖ Check4(p))` for `p = [ARG] ‖ key`, with no compression-flag byte (R181). -/
def deriveWif (arg : Byte) (key : Bytes) : Bytes := b58Enc (attach (arg :: key))

/-- DRV.ADDR #arg (R180): fails with InvalidLength when ILEN is not 33, touching nothing; otherwise
the digest engine was used, and a message in progress is lost. -/
def execDrvAddr (arg : Byte) (s : State) : Result :=
  if s.ilen ≠ 33 then .next (s.raiseFail .invalidLength)
  else .next ((s.setStream Stream.initial).deliver (deriveAddress arg s.input))

/-- DRV.WIF #arg (R181): fails with InvalidLength when ILEN is not 32; the stream is not used. -/
def execDrvWif (arg : Byte) (s : State) : Result :=
  if s.ilen ≠ 32 then .next (s.raiseFail .invalidLength)
  else .next (s.deliver (deriveWif arg s.input))

/-- IMP.WIF (R182): always fails with UnsupportedOperation, reading nothing. -/
def execImpWif (s : State) : Result := .next (s.raiseFail .unsupportedOperation)

end Sys2Proof.Machine
end

