-- ==== Sys2Proof/Machine/KeyFormat.lean ====
section
/-! DEFINITION. The key formatter (spec 42_keyformat.md R170): KF.FORMAT (R171) and KF.COMPRESS
(R172). It moves bytes and sets one marker byte. -/

namespace Sys2Proof.Machine

/-- The UncompressedPublicKey of a point X ‖ Y: `[0x04] ‖ X ‖ Y` (R171). -/
def formatKey (B : Bytes) : Bytes := 0x04 :: B

/-- The parity marker: 0x02 if Y's low bit is 0, else 0x03, where Y's last byte is at index 64
(R172, 10_state.md R41). -/
def parityMarker (B : Bytes) : Byte := if B.getD 64 0 &&& 0x01 = 0 then 0x02 else 0x03

/-- The CompressedPublicKey of an uncompressed key: marker ‖ IN[1..32] (R172). -/
def compressKey (B : Bytes) : Bytes := parityMarker B :: (B.drop 1).take 32

/-- KF.FORMAT (R171): fails with InvalidLength when ILEN is not 64. -/
def execKfFormat (s : State) : Result :=
  if s.ilen ≠ 64 then .next (s.raiseFail .invalidLength) else .next (s.deliver (formatKey s.input))

/-- KF.COMPRESS (R172): fails with InvalidFormat when ILEN is not 65 or IN[0] is not 0x04. -/
def execKfCompress (s : State) : Result :=
  if s.ilen ≠ 65 ∨ s.input.head? ≠ some 0x04 then .next (s.raiseFail .invalidFormat)
  else .next (s.deliver (compressKey s.input))

end Sys2Proof.Machine
end

