-- ==== Sys2Proof/Machine/Dispatch.lean ====
section
/-! DEFINITION. One arm per command (spec 30_encoding.md R84): what executing it does to the state. -/

namespace Sys2Proof.Machine

def exec (i : Instr) (s : State) : Host.Outcome State Fault Refusal :=
  match i with
  | .d160Init => Sys2Proof.Machine.execD160Init s
  | .d160Update => Sys2Proof.Machine.execD160Update s
  | .d160Final => Sys2Proof.Machine.execD160Final s
  | .d160Digest => Sys2Proof.Machine.execD160Digest s
  | .b58Enc => Sys2Proof.Machine.execB58Enc s
  | .b58Dec => Sys2Proof.Machine.execB58Dec s
  | .chkAttach => Sys2Proof.Machine.execChkAttach s
  | .chkVerify => Sys2Proof.Machine.execChkVerify s
  | .kfFormat => Sys2Proof.Machine.execKfFormat s
  | .kfCompress => Sys2Proof.Machine.execKfCompress s
  | .drvAddr arg => Sys2Proof.Machine.execDrvAddr arg s
  | .drvWif arg => Sys2Proof.Machine.execDrvWif arg s
  | .impWif => Sys2Proof.Machine.execImpWif s
  | .xfer => Sys2Proof.Machine.execXfer s
  | .clrerr => Sys2Proof.Machine.execClrerr s
  | .iclr => Sys2Proof.Machine.execIclr s
  | .extH256 => Sys2Proof.Machine.execExtH256 s

end Sys2Proof.Machine
end

