-- ==== Sys2Proof/Machine/Bus.lean ====
section
/-! DEFINITION. What one move of the host does (spec 20_memory.md R50, R53, R55; 30_encoding.md R80,
R83; 60_exceptions.md R235; 70_reset_and_hazards.md R250). -/

namespace Sys2Proof.Machine

/-- A value written to CMD (R80): the command it decodes to is run to its end; an illegal word
fails with IllegalCommand, reading and changing nothing else (R83, R226). -/
def runCommand (v : Word) (s : State) : Result :=
  match decode v with
  | .ok i => exec i s
  | .error _ => .next (s.raiseFail .illegalCommand)

/-- A bus error (R235): an error response and no change to the block. The host then goes on, or its
run ends there, by its own policy (U12, log 4). -/
def busError (c : BusCause) (s : State) : Result :=
  match s.host.onBusError with
  | .goesOn => .next (s.respond .busError)
  | .stops => .fault (.busError c)

/-- `MemRead(off, width)`. -/
def hostRead (width off : Nat) (s : State) : Result :=
  match memRead s width off with
  | .ok v => .next (s.respond (.value v))
  | .error c => busError c s

/-- `MemWrite(off, width, v)`: a write of CMD runs a command, a write of IPUSH appends a byte; there
is no other writable location (R55). -/
def hostWrite (width off : Nat) (v : Word) (s : State) : Result :=
  match memWritePort s width off with
  | .ok .cmd => runCommand v (s.respond .done)
  | .ok .ipush => .next ((s.push v).respond .done)
  | .error c => busError c s

/-- Reset (R250, R251): from any state to the reset state of the block. The host is not reset: its
remaining moves and its policy stay, and no answer is outstanding. -/
def hostReset (s : State) : Result :=
  .next { State.reset with host := { s.host with response := none } }

/-- One move of the host, on a state that no longer lists it. -/
def hostMove (m : HostMove) (s : State) : Result :=
  match m with
  | .read width off => hostRead width off s
  | .write width off v => hostWrite width off v s
  | .reset => hostReset s

/-- The state with the host's remaining moves replaced. -/
def State.setPending (s : State) (moves : List HostMove) : State :=
  { s with host := { s.host with pending := moves } }

/-- The command word laid out as a host move: one 32-bit write of CMD (R35, R81). A word of fewer
than 32 bits has zeros above. -/
def commandMove (v : Word) : HostMove := .write 4 0x0000 v

end Sys2Proof.Machine
end

