-- ==== Sys2Proof/Machine/Step.lean ====
section
/-! DEFINITION. One step: the host's next move, carried out whole (spec 20_memory.md R60). -/

namespace Sys2Proof.Machine

/-- One step takes the oldest move the host has not issued and carries it out. With none left the
block waits and nothing changes (00_scope.md R6: there is no end of a run; log 3). -/
def step (s : State) : Host.Outcome State Fault Refusal :=
  match s.host.pending with
  | [] => .next s
  | m :: rest => hostMove m (s.setPending rest)

/-- The command word `w` made the host's very next move, before whatever else it has to issue. -/
def State.withFetchWord (s : State) (nbits w : Nat) : State :=
  s.setPending (commandMove (BitVec.ofNat 32 (w % 2 ^ nbits)) :: s.host.pending)

end Sys2Proof.Machine
end

