-- ==== Sys2Proof/Machine/Assembler.lean ====
section
/-! DEFINITION. The host's notation for programs (spec 30_encoding.md R88, R89) as lists of host
moves: one line is one move, a pseudo-instruction is several. It adds nothing to the block. -/

namespace Sys2Proof.Machine

/-- A command line: `MemWrite(0x0000, 4, word)` with the command's word (R88). -/
def cmd (i : Instr) : HostMove := commandMove (encode i)

/-- `PUSH 0xNN` stands for `MemWrite(0x0018, 4, 0x000000NN)` (R88). -/
def pushMove (b : Byte) : HostMove := .write 4 0x0018 (b.zeroExtend 32)

/-- The offset of a register (20_memory.md R52). -/
def regOffset : Reg → Nat
  | .cmd => 0x0000
  | .status => 0x0004
  | .err => 0x0008
  | .ilen => 0x000C
  | .olen => 0x0010
  | .cap => 0x0014
  | .ipush => 0x0018
  | .h i => 0x0020 + 4 * i.val
  | .dlenLo => 0x0034
  | .dlenHi => 0x0038
  | .obufWord i => 0x4000 + 4 * i

/-- `RD name` stands for `MemRead(offset of name, 4)` (R88). -/
def rd (r : Reg) : HostMove := .read 4 (regOffset r)

/-- `WR off, value` stands for a raw `MemWrite(off, 4, value)` (R88). -/
def wr (off : Nat) (v : Word) : HostMove := .write 4 off v

/-- `PUSHB b0 b1 ... bn-1` (R89). -/
def pushb (B : Bytes) : List HostMove := B.map pushMove

/-- `PUSHT "text"`: PUSHB of the ASCII codes, leftmost first (R89). -/
def pusht (text : List Char) : List HostMove := pushb (text.map fun c => BitVec.ofNat 8 c.toNat)

/-- `LOAD b0 ... bn-1` = `ICLR`, then PUSHB (R89). -/
def load (B : Bytes) : List HostMove := cmd .iclr :: pushb B

/-- `MOVE` = `ICLR`, `XFER` (R89). -/
def moveOut : List HostMove := [cmd .iclr, cmd .xfer]

/-- `RDOUT` = `RD OLEN`, then `RD OBUF[0]` ... `RD OBUF[OLEN-1]`, for `n = OLEN` (R89). -/
def rdout (n : Nat) : List HostMove := rd .olen :: (List.range n).map fun i => rd (.obufWord i)

/-- `B58C.ENC` = `CHK.ATTACH`, `MOVE`, `B58.ENC` (R89). -/
def b58cEnc : List HostMove := cmd .chkAttach :: moveOut ++ [cmd .b58Enc]

/-- `B58C.DEC` = `B58.DEC`, `MOVE`, `CHK.VERIFY` (R89). -/
def b58cDec : List HostMove := cmd .b58Dec :: moveOut ++ [cmd .chkVerify]

/-- `HASH160` = `EXT.H256`, `MOVE`, `D160.DIGEST` (R89). -/
def hash160 : List HostMove := cmd .extH256 :: moveOut ++ [cmd .d160Digest]

/-- The commands of steps 2 to 4 of the host's procedure for one key (48_host_context.md R200): load
the point, format it, compress it, derive the address. The procedure with its reads and its tests of
ERR is `addressPlan`. -/
def addressProcedure (X Y : Bytes) (arg : Byte) : List HostMove :=
  load (X ++ Y) ++ [cmd .kfFormat] ++ moveOut ++ [cmd .kfCompress] ++ moveOut ++ [cmd (.drvAddr arg)]

/-- The commands of step 5 of R200: load the private key, derive the WIF. The procedure with its read
and its tests of ERR is `wifPlan`. -/
def wifProcedure (key : Bytes) (arg : Byte) : List HostMove := load key ++ [cmd (.drvWif arg)]

end Sys2Proof.Machine
end

