-- ==== Sys2Proof/Machine/Host.lean ====
section
/-! DEFINITION. The host as an agent that chooses its next move by what it read (spec
48_host_context.md): a plan, its run against the block, the host's tests and reads (R200, R207), the
whole procedure of R200 for one key, and the reading loop of 30_encoding.md R89. Nothing here is
state or behaviour of the block. -/

namespace Sys2Proof.Machine

/-- What a host will do: it is done, with a result, or it issues one move and goes on by the answer.
One transaction at a time (R207). A reset has no answer. -/
inductive Plan (α : Type) where
  | done (result : α)
  | issue (move : HostMove) (next : Option Response → Plan α)

/-- The run of a plan against the block, one step a move. -/
def runPlan {α : Type} : Plan α → State → Host.Outcome (α × State) Fault Refusal
  | .done a, s => .next (a, s)
  | .issue m next, s => match step (s.setPending [m]) with
    | .next t => runPlan (next t.host.response) t
    | .fault r => .fault r
    | .refused r => .refused r

/-- Why a host gives a procedure up: a command ended with a nonzero code, which ERR showed, or a
transaction it needed answered a bus error. -/
inductive GaveUp where
  | code (c : Word)
  | busError
  deriving DecidableEq, Repr

/-- A plan that ends with a result or is given up. -/
abbrev Procedure (α : Type) := Plan (Except GaveUp α)

/-- A plan that makes these moves and then goes on, whatever they answer. -/
def issueAll {α : Type} (moves : List HostMove) (next : Plan α) : Plan α :=
  moves.foldr (fun m p => .issue m fun _ => p) next

/-- A list of moves as a plan. -/
def Plan.ofMoves (moves : List HostMove) : Plan Unit := issueAll moves (.done ())

/-- A read whose value the host goes on with. -/
def readThen {α : Type} (r : Reg) (next : Word → Procedure α) : Procedure α :=
  .issue (rd r) fun answer => match answer with
    | some (.value v) => next v
    | _ => .done (.error .busError)

/-- A command and the test of ERR after it (R207): the host goes on when the code is 0, and gives up
otherwise (70_reset_and_hazards.md R256). -/
def tested {α : Type} (i : Instr) (next : Procedure α) : Procedure α :=
  .issue (cmd i) fun _ => readThen .err fun code =>
    if code = 0 then next else .done (.error (.code code))

/-- `OBUF[i]`, `OBUF[i+1]`, ... for `count` words, put behind the bytes read before. -/
def readWords {α : Type} (next : Bytes → Procedure α) : Nat → Nat → Bytes → Procedure α
  | 0, _, read => next read
  | count + 1, i, read =>
    readThen (.obufWord i) fun v => readWords next count (i + 1) (read ++ [v.extractLsb' 0 8])

/-- `RDOUT` (R89) by a host that does not know OLEN: read OLEN, then that many words of the window. -/
def readOutput {α : Type} (next : Bytes → Procedure α) : Procedure α :=
  readThen .olen fun n => readWords next n.toNat 0 []

/-- The output read "if wanted" (R200). -/
def readIf {α : Type} (wanted : Bool) (next : Option Bytes → Procedure α) : Procedure α :=
  if wanted then readOutput fun B => next (some B) else next none

/-- `LOAD` with its command tested. -/
def loadTested {α : Type} (B : Bytes) (next : Procedure α) : Procedure α :=
  tested .iclr (issueAll (pushb B) next)

/-- `MOVE` with both its commands tested. -/
def moveTested {α : Type} (next : Procedure α) : Procedure α := tested .iclr (tested .xfer next)

/-- Overwriting IBUF after DRV.WIF (R207, 70_reset_and_hazards.md R257): ICLR and 32 filler bytes. -/
def scrubIf {α : Type} (wanted : Bool) (next : Procedure α) : Procedure α :=
  if wanted then loadTested (List.replicate 32 0x00) next else next

/-- What the host chooses for one key: its prefix bytes, which intermediate keys it reads, and
whether the private key must not linger in IBUF. -/
structure KeyWishes where
  addressPrefix : Byte
  wifPrefix : Byte
  readUncompressed : Bool
  readCompressed : Bool
  scrub : Bool
  deriving DecidableEq, Repr

/-- What the host has read at the end of the procedure for one key. -/
structure KeyReport where
  uncompressed : Option Bytes
  compressed : Option Bytes
  address : Bytes
  wif : Bytes
  deriving DecidableEq, Repr

/-- Steps 2 to 4 of R200: load the point and format it, compress it, derive the address, reading the
two keys if wanted and the address, and testing ERR after every command. -/
def addressPlan {α : Type} (w : KeyWishes) (X Y : Bytes)
    (next : Option Bytes → Option Bytes → Bytes → Procedure α) : Procedure α :=
  loadTested (X ++ Y) <| tested .kfFormat <| readIf w.readUncompressed fun uncompressed =>
  moveTested <| tested .kfCompress <| readIf w.readCompressed fun compressed =>
  moveTested <| tested (.drvAddr w.addressPrefix) <| readOutput fun address =>
  next uncompressed compressed address

/-- Step 5 of R200: load the private key, derive the WIF and read it, testing ERR after every command;
then the duty of R207 to overwrite IBUF if the key must not linger. -/
def wifPlan {α : Type} (w : KeyWishes) (key : Bytes) (next : Bytes → Procedure α) : Procedure α :=
  loadTested key <| tested (.drvWif w.wifPrefix) <| readOutput fun wif =>
  scrubIf w.scrub (next wif)

/-- The host's procedure for one key (R200). Step 1, which obtains the point (X, Y) of the key from the
external capability, lies outside the block (00_scope.md R4 a; R201: "a model of the block takes
(X, Y) as free input"). -/
def keyPlan (w : KeyWishes) (key X Y : Bytes) : Procedure KeyReport :=
  addressPlan w X Y fun uncompressed compressed address =>
  wifPlan w key fun wif => .done (.ok ⟨uncompressed, compressed, address, wif⟩)

/-- `B58C.DEC` as R89 asks the host to run it: tested after B58.DEC, and stopped there on a failure. -/
def b58cDecPlan : Procedure Bytes :=
  tested .b58Dec <| moveTested <| tested .chkVerify <| readOutput fun B => .done (.ok B)

end Sys2Proof.Machine
end

