-- ==== Sys2Proof/Machine/Duties.lean ====
section
/-! DEFINITION. The host's duties toward the block (spec 48_host_context.md R207): what a host
remembers of its own moves, which moves its duties leave it, and what a dutiful run is. The block
itself is defined for every move (R207: "every command is defined in every state"), so `step` asks
for no duty; a claim that needs one says so. How each duty is read is log 8. -/

namespace Sys2Proof.Machine

/-- What the host knows of its last command: not tested yet, tested by a STATUS that was already set and
so tells nothing of this command, failed, or passed. -/
inductive Verdict where
  | untested
  | doubtful
  | failed
  | passed
  deriving DecidableEq, Repr

/-- How far a string of bytes may be trusted to be what its commands were asked for: they all passed;
one was not tested yet and may have failed; or one failed, or can no longer be tested. -/
inductive Trust where
  | sound
  | unproven
  | unfit
  deriving DecidableEq, Repr

/-- A result from two sources is worth what the worse of them is. -/
def Trust.and : Trust → Trust → Trust
  | .sound, b => b
  | .unproven, .sound => .unproven
  | .unproven, .unproven => .unproven
  | .unproven, .unfit => .unfit
  | .unfit, _ => .unfit

/-- Trust after a command whose test was left out: what it is if the command passed, unless a failure
would have made it worse. -/
def Trust.overtaken (ifPassed ifFailed : Trust) : Trust :=
  if ifPassed = .sound ∧ ifFailed ≠ .sound then .unproven else ifPassed

/-- STATUS.ERRF = 0: no command since the last CLRERR has failed (60_exceptions.md R229). -/
def Trust.proved : Trust → Trust
  | .sound => .sound
  | .unproven => .sound
  | .unfit => .unfit

/-- CLRERR: what was not tested before it never can be. -/
def Trust.abandoned : Trust → Trust
  | .sound => .sound
  | .unproven => .unfit
  | .unfit => .unfit

/-- The trust in OBUF as the result of the last command asked for one, in IBUF, and in the message in
progress (70_reset_and_hazards.md R256: stale bytes travel by XFER into later results). -/
structure Standing where
  output : Trust
  input : Trust
  message : Trust
  deriving DecidableEq, Repr

/-- Everything sound: the standing after reset. -/
def Standing.fresh : Standing := ⟨.sound, .sound, .sound⟩

/-- The standing after a command that passed: a result is worth what it was made from. -/
def Standing.passed (k : Standing) : Instr → Standing
  | .d160Init => { k with message := .sound }
  | .d160Update => { k with message := k.message.and k.input }
  | .d160Final => { k with output := k.message, message := .sound }
  | .d160Digest => { k with output := k.input, message := .sound }
  | .b58Enc => { k with output := k.input }
  | .b58Dec => { k with output := k.input }
  | .chkAttach => { k with output := k.input }
  | .chkVerify => { k with output := k.input }
  | .kfFormat => { k with output := k.input }
  | .kfCompress => { k with output := k.input }
  | .drvAddr _ => { k with output := k.input, message := .sound }
  | .drvWif _ => { k with output := k.input }
  | .impWif => k
  | .xfer => { k with input := k.input.and k.output }
  | .clrerr => k
  | .iclr => { k with input := .sound }
  | .extH256 => { k with output := k.input }

/-- The standing after a command that failed: an XFER has not brought what it should, and behind any
other command OBUF holds an older result than the one asked for (R256). -/
def Standing.failed (k : Standing) (i : Instr) : Standing :=
  if i = .xfer then { k with input := .unfit } else { k with output := .unfit }

/-- Where the private key of a DRV.WIF is (70_reset_and_hazards.md R257): not in IBUF, in it, or in
it behind an ICLR, to be overwritten by what comes next. -/
inductive KeyTrace where
  | absent
  | lingering
  | cleared
  deriving DecidableEq, Repr

/-- What a host remembers of its own moves and of their answers. -/
structure Ledger where
  /-- what it knows of its last command -/
  verdict : Verdict
  /-- whether that command is one that can fail -/
  fallible : Bool
  /-- a command that can fail was followed by another before it was tested -/
  owed : Bool
  /-- a command has used the input that is in IBUF -/
  consumed : Bool
  /-- a streamed message is in progress -/
  streaming : Bool
  /-- the private key's trace -/
  key : KeyTrace
  /-- the standing of the data if the last command passed -/
  ifPassed : Standing
  /-- and if it failed -/
  ifFailed : Standing
  deriving DecidableEq, Repr

/-- A host that has done nothing since reset. -/
def Ledger.start : Ledger := ⟨.passed, false, false, false, false, .absent, .fresh, .fresh⟩

/-- The commands that can fail once decoded (30_encoding.md R86). -/
def canFail : Instr → Bool
  | .b58Enc => true
  | .b58Dec => true
  | .chkAttach => true
  | .chkVerify => true
  | .kfFormat => true
  | .kfCompress => true
  | .drvAddr _ => true
  | .drvWif _ => true
  | .impWif => true
  | .xfer => true
  | .d160Init => false
  | .d160Update => false
  | .d160Final => false
  | .d160Digest => false
  | .clrerr => false
  | .iclr => false
  | .extH256 => false

/-- The standing after a command, by whether it passed. -/
def Standing.ended (k : Standing) (i : Instr) (ok : Bool) : Standing :=
  if ok || !canFail i then k.passed i else k.failed i

/-- The commands that use the bytes of IN (R86; XFER reads ILEN only). -/
def readsIn : Instr → Bool
  | .d160Update => true
  | .d160Digest => true
  | .b58Enc => true
  | .b58Dec => true
  | .chkAttach => true
  | .chkVerify => true
  | .kfFormat => true
  | .kfCompress => true
  | .drvAddr _ => true
  | .drvWif _ => true
  | .extH256 => true
  | .d160Init => false
  | .d160Final => false
  | .impWif => false
  | .xfer => false
  | .clrerr => false
  | .iclr => false

/-- A result the host has not looked at, and would lose. -/
def Ledger.testOwed (d : Ledger) : Bool := d.owed || (d.verdict == .untested && d.fallible)

/-- What the host can tell of its data without testing its last command. -/
def Ledger.known (d : Ledger) : Standing :=
  ⟨d.ifPassed.output.overtaken d.ifFailed.output, d.ifPassed.input.overtaken d.ifFailed.input,
    d.ifPassed.message.overtaken d.ifFailed.message⟩

/-- A byte of ASCII text that is no terminator (R207). -/
def isTextByte (c : Byte) : Bool := c != 0x00 && c.toNat < 0x80

/-- A private key within its invariant: 32 bytes whose big-endian integer is below the curve order
(R203, R207). -/
def isPrivateKey (B : Bytes) : Bool := B.length == 32 && be B < Config.curveOrder

/-- The duties at a command (R207): no D160.DIGEST or DRV.ADDR within a streamed message, no XFER onto
an input already used, two coordinates of 32 bytes each, a private key within its invariant, and
ASCII text without a terminator. -/
def commandAllowed (d : Ledger) (s : State) : Instr → Bool
  | .d160Digest => !d.streaming
  | .drvAddr _ => !d.streaming
  | .xfer => !d.consumed
  | .kfFormat => s.ilen == 64
  | .drvWif _ => isPrivateKey s.input
  | .b58Dec => s.input.all isTextByte
  | .clrerr => true
  | .d160Init => true
  | .d160Update => true
  | .d160Final => true
  | .b58Enc => true
  | .chkAttach => true
  | .chkVerify => true
  | .kfCompress => true
  | .impWif => true
  | .iclr => true
  | .extH256 => true

/-- The moves R207 leaves the host: 32-bit transactions (20_memory.md R50), any readable register at
any time, but the output window only after a test of every command, the last one passed, and with a
result known to be sound (70_reset_and_hazards.md R256); a push only onto an input not used yet; and
the commands its duties allow. A reset is the platform's (R250), which no duty of the host's binds. -/
def moveAllowed (d : Ledger) (s : State) : HostMove → Bool
  | .read width off => width == 4 && (off < 0x4000 ||
    (d.verdict == .passed && !d.owed && d.known.output == .sound))
  | .write width off v => width == 4 &&
    (if off = 0x0000 then
      match decode v with
      | .ok i => commandAllowed d s i
      | .error _ => true
    else off != 0x0018 || !d.consumed)
  | .reset => true

/-- What an answer of ERR tells of the last command. -/
def Ledger.sawErr (d : Ledger) (code : Word) : Ledger :=
  if code = 0 then { d with verdict := .passed, ifFailed := d.ifPassed }
  else { d with verdict := .failed, ifPassed := d.ifFailed }

/-- STATUS.ERRF = 0 proves every result that waited for its test. -/
def Standing.proved (k : Standing) : Standing := ⟨k.output.proved, k.input.proved, k.message.proved⟩

/-- CLRERR gives up every result that waited for its test. -/
def Standing.abandoned (k : Standing) : Standing :=
  ⟨k.output.abandoned, k.input.abandoned, k.message.abandoned⟩

/-- What an answer of STATUS tells: with the sticky flag clear every command has passed; with it set
some command has failed, it does not say which, and so no result is proved by it. -/
def Ledger.sawStatus (d : Ledger) (status : Word) : Ledger :=
  if status = 0 then
    { d with
      owed := false, verdict := .passed, ifPassed := d.ifPassed.proved, ifFailed := d.ifPassed.proved }
  else
    { d with
      owed := false
      verdict := if d.verdict = .untested then (if d.fallible then .doubtful else .passed)
        else d.verdict }

/-- A command issued: its result is untested, and so stays an earlier one not looked at. -/
def Ledger.issued (d : Ledger) (fallible : Bool) : Ledger :=
  { d with owed := d.testOwed, verdict := .untested, fallible := fallible }

/-- Whether a streamed message is in progress after a command (70_reset_and_hazards.md R254). -/
def streamingAfter (streaming : Bool) : Instr → Bool
  | .d160Update => true
  | .d160Init => false
  | .d160Final => false
  | .d160Digest => false
  | .drvAddr _ => streaming
  | .b58Enc => streaming
  | .b58Dec => streaming
  | .chkAttach => streaming
  | .chkVerify => streaming
  | .kfFormat => streaming
  | .kfCompress => streaming
  | .drvWif _ => streaming
  | .impWif => streaming
  | .xfer => streaming
  | .clrerr => streaming
  | .iclr => streaming
  | .extH256 => streaming

/-- ICLR leaves the key's bytes in IBUF, at indices that are written next (R257). -/
def KeyTrace.clear : KeyTrace → KeyTrace
  | .lingering => .cleared
  | .cleared => .cleared
  | .absent => .absent

/-- The key's bytes are overwritten once 32 bytes have come in behind an ICLR. -/
def KeyTrace.settle (k : KeyTrace) (ilen : Nat) : KeyTrace :=
  if k = .cleared ∧ 32 ≤ ilen then .absent else k

/-- The key's trace after a command. -/
def KeyTrace.after (k : KeyTrace) : Instr → KeyTrace
  | .drvWif _ => .lingering
  | .iclr => k.clear
  | .d160Init => k
  | .d160Update => k
  | .d160Final => k
  | .d160Digest => k
  | .b58Enc => k
  | .b58Dec => k
  | .chkAttach => k
  | .chkVerify => k
  | .kfFormat => k
  | .kfCompress => k
  | .drvAddr _ => k
  | .impWif => k
  | .xfer => k
  | .clrerr => k
  | .extH256 => k

/-- The standing a command starts from: CLRERR gives up what was not tested. -/
def Ledger.before (d : Ledger) (i : Instr) : Standing :=
  if i = .clrerr then d.known.abandoned else d.known

/-- A command noted. -/
def Ledger.ran (d : Ledger) (i : Instr) : Ledger :=
  { d.issued (canFail i) with
    consumed := if i = .iclr then false else d.consumed || readsIn i
    streaming := streamingAfter d.streaming i
    key := d.key.after i
    ifPassed := (d.before i).ended i true
    ifFailed := (d.before i).ended i false }

/-- An illegal word noted: it fails (30_encoding.md R83), and brings no result. -/
def Ledger.ranIllegal (d : Ledger) : Ledger :=
  { d.issued true with
    ifPassed := { d.known with output := .unfit }
    ifFailed := { d.known with output := .unfit } }

/-- A move and its answer noted; `t` is the state the move ended in. -/
def Ledger.note (d : Ledger) (m : HostMove) (t : State) : Ledger :=
  match m with
  | .read width off =>
    if width = 4 then
      match t.host.response with
      | some (.value v) =>
        if off = 0x0008 then d.sawErr v else if off = 0x0004 then d.sawStatus v else d
      | _ => d
    else d
  | .write width off v =>
    let e := if width = 4 ∧ off = 0x0000 then
        match decode v with
        | .ok i => d.ran i
        | .error _ => d.ranIllegal
      else d
    { e with key := e.key.settle t.ilen }
  | .reset => { Ledger.start with key := d.key.clear }

/-- Whether a plan, run from `s` by a host with this ledger, makes only moves its duties leave it and,
where the key must not linger, ends with the key overwritten. A run that a fault ends is judged up
to there. -/
def dutiful {α : Type} (noKeyLeft : Bool) : Plan α → Ledger → State → Bool
  | .done _, d, _ => !noKeyLeft || d.key == .absent
  | .issue m next, d, s => moveAllowed d s m && match step (s.setPending [m]) with
    | .next t => dutiful noKeyLeft (next t.host.response) (d.note m t) t
    | .fault _ => true
    | .refused _ => true

/-- A move that was made, and the state it ended in. -/
structure Event where
  move : HostMove
  after : State
  deriving DecidableEq, Repr

/-- The runs of a host that has no other move than its duties leave it (R207): what happened (the newest
event first), what the host remembers, and the state, after any number of moves of its choice. -/
inductive DutifulRun : Ledger → State → List Event → Ledger → State → Prop where
  | refl (d : Ledger) (s : State) : DutifulRun d s [] d s
  | move {d d' : Ledger} {s s' t : State} {h : List Event} {m : HostMove}
      (before : DutifulRun d s h d' s') (allowed : moveAllowed d' s' m = true)
      (next : step (s'.setPending [m]) = .next t) : DutifulRun d s (⟨m, t⟩ :: h) (d'.note m t) t

/-! What is true of a run, whatever the host knows of it. -/

/-- The true standing of the data after a move that ended in `t`. -/
def Standing.after (k : Standing) (m : HostMove) (t : State) : Standing :=
  match m with
  | .read _ _ => k
  | .write width off v =>
    if width = 4 ∧ off = 0x0000 then
      match decode v with
      | .ok i => k.ended i (t.errCode == 0)
      | .error _ => { k with output := .unfit }
    else k
  | .reset => .fresh

/-- The true standing after a history, from the standing at its beginning. -/
def Standing.afterAll (k : Standing) : List Event → Standing
  | [] => k
  | e :: h => (k.afterAll h).after e.move e.after

/-- The moves behind which a host expects a new OBUF: the commands other than XFER that can fail, those
that always deliver, an illegal word (no command can be named, so none is left out), and a reset. -/
def asksOutput : HostMove → Bool
  | .read _ _ => false
  | .write width off v => width == 4 && off == 0x0000 && match decode v with
    | .ok i => (canFail i && i != .xfer) || i ∈ [.d160Final, .d160Digest, .extH256]
    | .error _ => true
  | .reset => true

/-- A coordinate or key as the host supplies it (R207): the 32 bytes of its big-endian integer,
left-padded with zeros. -/
def leftPad32 (n : Nat) : Bytes :=
  List.replicate (32 - (minBE n).length) 0x00 ++ minBE n

end Sys2Proof.Machine
end

