-- ==== Sys2Proof/Safety.lean ====
section
/-! DEFINITION. The terms claims are stated in: a run of a list of host moves, what of a state is
the block's, the invariant of the block's state, and what a safe run is. -/

namespace Sys2Proof.Machine

/-- A run of a list of host moves from a state: one step a move (spec 00_scope.md R6: the state after
the last move is the result). -/
def runMoves (moves : List HostMove) (s : State) : Result :=
  Sys2Proof.core.run moves.length (s.setPending moves)

/-- Two states whose block is the same: they differ in the host side at most. -/
abbrev State.SameBlock (s t : State) : Prop :=
  t.stream = s.stream ∧ t.ibuf = s.ibuf ∧ t.obuf = s.obuf ∧ t.errCode = s.errCode ∧ t.errf = s.errf

/-- The buffers' canonical form: the meaningful bytes fit their buffer, `0 <= ILEN <= BUFCAP` and
`0 <= OLEN <= BUFCAP` (10_state.md R31, R33). The buffers are the only byte storage there is, and
hold nothing but meaningful bytes, so equal contents are equal data. -/
abbrev Memory.wf (s : State) : Prop :=
  s.ibuf.length ≤ Config.bufcap ∧ s.obuf.length ≤ Config.bufcap

/-- `len(TAIL) = (DLEN div 8) mod 64` and DLEN a multiple of 8 (R26, R27). -/
abbrev Stream.wf (st : Stream) : Prop :=
  st.tail.length = st.dlen.toNat / 8 % 64 ∧ st.dlen.toNat % 8 = 0

/-- ERR.CODE is one of 0 to 7, and is nonzero only with the sticky flag set
(60_exceptions.md R220, R229, R230). -/
abbrev State.errorWf (s : State) : Prop :=
  s.errCode.toNat ≤ 7 ∧ (s.errCode ≠ 0 → s.errf = true)

/-- The invariant of the block's state. -/
abbrev State.Inv (s : State) : Prop := Memory.wf s ∧ s.stream.wf ∧ s.errorWf

/-- What is known of a string's trust holds of its true trust: sound is sound, and what waits for its
test is sound when no command has failed since the last CLRERR. -/
abbrev Trust.Covers (known truth : Trust) (errf : Bool) : Prop :=
  known = .sound ∨ (known = .unproven ∧ errf = false) → truth = .sound

/-- The same of the output, the input and the message. -/
abbrev Standing.Covers (known truth : Standing) (errf : Bool) : Prop :=
  known.output.Covers truth.output errf ∧ known.input.Covers truth.input errf ∧
  known.message.Covers truth.message errf

/-- What a host remembers agrees with the block and with the true standing of its data: with no message
in progress the stream is the initial one; with the last command known to have passed, or one that
cannot fail, the code is 0; and the standing the host holds for the last command's outcome is true. -/
abbrev Ledger.Agrees (d : Ledger) (truth : Standing) (s : State) : Prop :=
  (d.streaming = false → s.stream = Stream.initial) ∧
  (d.verdict = .passed ∨ d.fallible = false → s.errCode = 0) ∧
  (if s.errCode = 0 then d.ifPassed else d.ifFailed).Covers truth s.errf

/-- A safe run: one that reaches its end, with no fault and no refusal. The only stop there is is a
bus error of a host that ends its run at one. -/
def SafeRun (moves : List HostMove) (s : State) : Prop := ∃ t, runMoves moves s = .next t

/-- The output-producing commands (30_encoding.md R86, "Writes OUT"). -/
def writesOut : Instr → Bool
  | .d160Init => false
  | .d160Update => false
  | .d160Final => true
  | .d160Digest => true
  | .b58Enc => true
  | .b58Dec => true
  | .chkAttach => true
  | .chkVerify => true
  | .kfFormat => true
  | .kfCompress => true
  | .drvAddr _ => true
  | .drvWif _ => true
  | .impWif => false
  | .xfer => false
  | .clrerr => false
  | .iclr => false
  | .extH256 => true

/-- The commands that write IBUF or ILEN (R86). -/
def writesIn : Instr → Bool
  | .xfer => true
  | .iclr => true
  | .d160Init => false
  | .d160Update => false
  | .d160Final => false
  | .d160Digest => false
  | .b58Enc => false
  | .b58Dec => false
  | .chkAttach => false
  | .chkVerify => false
  | .kfFormat => false
  | .kfCompress => false
  | .drvAddr _ => false
  | .drvWif _ => false
  | .impWif => false
  | .clrerr => false
  | .extH256 => false

/-- The commands that write the digest stream (R86; D160.DIGEST and DRV.ADDR re-initialise it). -/
def writesStream : Instr → Bool
  | .d160Init => true
  | .d160Update => true
  | .d160Final => true
  | .d160Digest => true
  | .drvAddr _ => true
  | .b58Enc => false
  | .b58Dec => false
  | .chkAttach => false
  | .chkVerify => false
  | .kfFormat => false
  | .kfCompress => false
  | .drvWif _ => false
  | .impWif => false
  | .xfer => false
  | .clrerr => false
  | .iclr => false
  | .extH256 => false

/-- A message padded as a whole (40_digest160.md R128): `B ‖ 0x80 ‖ zeros ‖ LE64(8*len(B) mod 2^64)`,
a multiple of 64 bytes. -/
def wholePad (B : Bytes) : Bytes :=
  B ++ [0x80] ++ List.replicate (padZeros (B.length % 64)) 0x00 ++ le64 (BitVec.ofNat 64 (8 * B.length))

/-- `Compress` folded over the first `n` blocks of 64 bytes (R128). -/
def compressBlocks : Nat → Chain → Bytes → Chain
  | 0, h, _ => h
  | n + 1, h, B => compressBlocks n (compress h (B.take 64)) (B.drop 64)

end Sys2Proof.Machine
end

