-- ==== Sys2Proof/Certificates/Slice0/Obligations.lean ====
section
/-! DEFINITION. The statements for the provers. Each docstring names the rule of spec/ it
formalises. A statement that says what a command does gives the WHOLE next state, so it says at once
what changes and that nothing else does: every register, every byte of either buffer, the stream,
the flag and the host side. -/

open Sys2Proof Sys2Proof.Machine

/-! ### Reset -/

/-- 10_state.md R45: the state after reset, what a host can see of it (CAP reads BUFCAP, no word of
the output window can be read), and that the stream is where D160.INIT leaves it, so that D160.UPDATE
or D160.FINAL may come first. -/
def Obligations.ResetStateValues : Prop :=
  State.reset.stream.h = ⟨0x67452301, 0xEFCDAB89, 0x98BADCFE, 0x10325476, 0xC3D2E1F0⟩ ∧
  State.reset.stream.tail = [] ∧
  State.reset.stream.dlen = 0 ∧
  State.reset.ilen = 0 ∧
  State.reset.olen = 0 ∧
  State.reset.errCode = 0 ∧
  State.reset.errf = false ∧
  memRead State.reset 4 0x0014 = .ok (BitVec.ofNat 32 Config.bufcap) ∧
  (∀ i < 4096, memRead State.reset 4 (0x4000 + 4 * i) = .error .beyondOlen) ∧
  exec .d160Init State.reset = .next State.reset ∧
  (∃ t, exec .d160Update State.reset = .next t ∧ t.errCode = 0) ∧
  (∃ t, exec .d160Final State.reset = .next t ∧ t.errCode = 0)

/-- 70_reset_and_hazards.md R250, R251: reset takes any state to the reset state of the block; and
D160.INIT, ICLR, CLRERR reach that state from every state, except OLEN (and the output it counts).
That the host keeps its remaining moves and its policy at a reset, and that a run is a list of
moves, is the model's choice (log 3). -/
def Obligations.ResetAndItsSoftwareCounterpart : Prop :=
  (∀ (s : State) (rest : List HostMove), s.host.pending = .reset :: rest →
    step s = .next { State.reset with
      host := { pending := rest, response := none, onBusError := s.host.onBusError } }) ∧
  (∀ s : State, ∃ t, runMoves [cmd .d160Init, cmd .iclr, cmd .clrerr] s = .next t ∧
    t.stream = State.reset.stream ∧ t.ibuf = State.reset.ibuf ∧ t.errCode = State.reset.errCode ∧
    t.errf = State.reset.errf ∧ t.obuf = s.obuf)

/-! ### The command word -/

/-- 30_encoding.md R84 and 95_test_vectors.md 7.2: a few words of the map, and a few illegal ones. -/
def Obligations.DecodeOfTableWords : Prop :=
  decode 0x00000001 = .ok .d160Init ∧
  decode 0x00000004 = .ok .d160Digest ∧
  decode 0x00000013 = .ok .chkVerify ∧
  decode 0x00000021 = .ok .kfCompress ∧
  decode 0x0000FF30 = .ok (.drvAddr 0xFF) ∧
  decode 0x00008031 = .ok (.drvWif 0x80) ∧
  decode 0x00000041 = .ok .clrerr ∧
  decode 0x00000050 = .ok .extH256 ∧
  decode 0x00000000 = .error .unassignedOpcode ∧
  decode 0x00000101 = .error .argNotZero ∧
  decode 0x80000030 = .error .reservedBits

/-- 30_encoding.md R84: a word v is command X exactly when `(v & mask_X) = match_X`, for each of the
seventeen rows, and ARG is bits 15:8. -/
def Obligations.LegalWordsAreTheOpcodeMap : Prop :=
  ∀ v : Word,
    (decode v = .ok .d160Init ↔ v &&& 0xFFFFFFFF = 0x00000001) ∧
    (decode v = .ok .d160Update ↔ v &&& 0xFFFFFFFF = 0x00000002) ∧
    (decode v = .ok .d160Final ↔ v &&& 0xFFFFFFFF = 0x00000003) ∧
    (decode v = .ok .d160Digest ↔ v &&& 0xFFFFFFFF = 0x00000004) ∧
    (decode v = .ok .b58Enc ↔ v &&& 0xFFFFFFFF = 0x00000010) ∧
    (decode v = .ok .b58Dec ↔ v &&& 0xFFFFFFFF = 0x00000011) ∧
    (decode v = .ok .chkAttach ↔ v &&& 0xFFFFFFFF = 0x00000012) ∧
    (decode v = .ok .chkVerify ↔ v &&& 0xFFFFFFFF = 0x00000013) ∧
    (decode v = .ok .kfFormat ↔ v &&& 0xFFFFFFFF = 0x00000020) ∧
    (decode v = .ok .kfCompress ↔ v &&& 0xFFFFFFFF = 0x00000021) ∧
    (∀ a, decode v = .ok (.drvAddr a) ↔ v &&& 0xFFFF00FF = 0x00000030 ∧ a = v.extractLsb' 8 8) ∧
    (∀ a, decode v = .ok (.drvWif a) ↔ v &&& 0xFFFF00FF = 0x00000031 ∧ a = v.extractLsb' 8 8) ∧
    (decode v = .ok .impWif ↔ v &&& 0xFFFFFFFF = 0x00000032) ∧
    (decode v = .ok .xfer ↔ v &&& 0xFFFFFFFF = 0x00000040) ∧
    (decode v = .ok .clrerr ↔ v &&& 0xFFFFFFFF = 0x00000041) ∧
    (decode v = .ok .iclr ↔ v &&& 0xFFFFFFFF = 0x00000042) ∧
    (decode v = .ok .extH256 ↔ v &&& 0xFFFFFFFF = 0x00000050)

/-- 30_encoding.md R84, R85: decoding and encoding are inverse, for every command with every operand
and for every word, also as the opcode table numbers its bits. R85 is the spec's own inference from
R83 and R84. -/
def Obligations.DecodeAndEncodeAgree : Prop :=
  (∀ i : Instr, decode (encode i) = .ok i) ∧
  (∀ (v : Word) (i : Instr), decode v = .ok i → encode i = v) ∧
  (∀ i : Instr, decodeTableWord 32 (encode i).toNat = some i)

/-- 30_encoding.md R83: the three word checks in their order; every word that passes them is legal;
an illegal word fails with IllegalCommand (6) and changes nothing but the code and the flag; the
all-zero word is illegal. -/
def Obligations.IllegalWordsFailInOrder : Prop :=
  ∀ v : Word,
    (v.extractLsb' 16 16 ≠ 0 → decode v = .error .reservedBits) ∧
    (v.extractLsb' 16 16 = 0 → v.extractLsb' 0 8 ∉ assignedOpcodes →
      decode v = .error .unassignedOpcode) ∧
    (v.extractLsb' 16 16 = 0 → v.extractLsb' 0 8 ∈ assignedOpcodes →
      v.extractLsb' 0 8 ≠ 0x30 → v.extractLsb' 0 8 ≠ 0x31 → v.extractLsb' 8 8 ≠ 0 →
      decode v = .error .argNotZero) ∧
    (v.extractLsb' 16 16 = 0 → v.extractLsb' 0 8 ∈ assignedOpcodes →
      (v.extractLsb' 0 8 = 0x30 ∨ v.extractLsb' 0 8 = 0x31 ∨ v.extractLsb' 8 8 = 0) →
      ∃ i, decode v = .ok i) ∧
    (∀ (e : DecodeError) (s : State), decode v = .error e →
      runCommand v s = .next { s with errCode := 6, errf := true }) ∧
    (∃ e, decode 0 = .error e)

/-- 30_encoding.md R80: a step whose move is a write of CMD with a legal word is that command, run on
the state with the host's list moved on and the write answered; with no move left the block waits and
nothing changes (00_scope.md R6). That a step is one move of the host, and what a step without one
does, is the model's choice (log 3). -/
def Obligations.StepRunsTheDecodedCommand : Prop :=
  (∀ (s : State) (v : Word) (i : Instr) (rest : List HostMove),
    s.host.pending = .write 4 0x0000 v :: rest → decode v = .ok i →
    step s = exec i { s with
      host := { pending := rest, response := some .done, onBusError := s.host.onBusError } }) ∧
  (∀ s : State, s.host.pending = [] → step s = .next s)

/-! ### The Digest160 unit -/

/-- 40_digest160.md R130: D160.INIT, word 0x00000001. -/
def Obligations.D160InitResult : Prop :=
  encode .d160Init = 0x00000001 ∧
  ∀ s : State, exec .d160Init s = .next { s with
    stream := ⟨⟨0x67452301, 0xEFCDAB89, 0x98BADCFE, 0x10325476, 0xC3D2E1F0⟩, [], 0⟩
    errCode := 0 }

/-- 40_digest160.md R131: D160.UPDATE, word 0x00000002; with ILEN = 0 it absorbs nothing; and the rule's
example, 32 zero bytes absorbed twice from the reset state. -/
def Obligations.D160UpdateResult : Prop :=
  encode .d160Update = 0x00000002 ∧
  ∀ s : State,
    exec .d160Update s = .next { s with stream := absorb s.stream s.ibuf, errCode := 0 } ∧
    (s.ibuf = [] → absorb s.stream s.ibuf = s.stream) ∧
    absorb Stream.initial (List.replicate 32 0x00) =
      ⟨⟨0x67452301, 0xEFCDAB89, 0x98BADCFE, 0x10325476, 0xC3D2E1F0⟩, List.replicate 32 0x00, 256⟩ ∧
    absorb ⟨⟨0x67452301, 0xEFCDAB89, 0x98BADCFE, 0x10325476, 0xC3D2E1F0⟩, List.replicate 32 0x00, 256⟩
        (List.replicate 32 0x00) =
      ⟨⟨0x187E9BC5, 0x248B9535, 0xD0D6DDCC, 0x987C4E30, 0xCB45101F⟩, [], 512⟩

/-- 40_digest160.md R125: absorbing is byte by byte; a full block is compressed with the chaining
value the block before it left; absorbing two strings is absorbing their concatenation (this last the
spec's own inference, "derived: the loop is byte by byte"). -/
def Obligations.AbsorbByteByByte : Prop :=
  ∀ (st : Stream) (b : Byte) (B C : Bytes),
    absorb st [] = st ∧
    absorb st (b :: B) = absorb
      (if (st.tail ++ [b]).length = 64 then ⟨compress st.h (st.tail ++ [b]), [], st.dlen + 8⟩
       else ⟨st.h, st.tail ++ [b], st.dlen + 8⟩) B ∧
    absorb (absorb st B) C = absorb st (B ++ C)

/-- 40_digest160.md R132: D160.FINAL, word 0x00000003: 20 bytes out and a fresh stream; with nothing
absorbed, the digest of the empty message; after "abc", the rule's example. -/
def Obligations.D160FinalResult : Prop :=
  encode .d160Final = 0x00000003 ∧
  ∀ s : State,
    exec .d160Final s = .next { s with
      obuf := finish s.stream
      stream := ⟨⟨0x67452301, 0xEFCDAB89, 0x98BADCFE, 0x10325476, 0xC3D2E1F0⟩, [], 0⟩
      errCode := 0 } ∧
    (finish s.stream).length = 20 ∧
    (s.stream = Stream.initial → finish s.stream =
      [0x9C, 0x11, 0x85, 0xA5, 0xC5, 0xE9, 0xFC, 0x54, 0x61, 0x28, 0x08, 0x97, 0x7E, 0xE8, 0xF5,
       0x48, 0xB2, 0x25, 0x8D, 0x31]) ∧
    (s.stream = absorb Stream.initial [0x61, 0x62, 0x63] → finish s.stream =
      [0x8E, 0xB2, 0x08, 0xF7, 0xE0, 0x5D, 0x98, 0x7A, 0x9B, 0x04, 0x4A, 0x8E, 0x98, 0xC6, 0xB0,
       0x87, 0xF1, 0x5A, 0x0B, 0xFC])

/-- 40_digest160.md R126: the padding of a tail of at most 63 bytes: the tail, 0x80, the least count
of zero bytes that brings the length to 56 modulo 64, and the bit count, low word first; one block
for a tail of at most 55 bytes, else two; and the rule's two examples. -/
def Obligations.PaddingShape : Prop :=
  pad [] 0 = [0x80] ++ List.replicate 55 0x00 ++ List.replicate 8 0x00 ∧
  pad [0x61, 0x62, 0x63] 24 =
    [0x61, 0x62, 0x63, 0x80] ++ List.replicate 52 0x00 ++ [0x18, 0, 0, 0, 0, 0, 0, 0] ∧
  ∀ (tail : Bytes) (dlen : DWord), tail.length ≤ 63 →
    ∃ z, pad tail dlen = tail ++ [0x80] ++ List.replicate z 0x00
          ++ le32 (dlen.extractLsb' 0 32) ++ le32 (dlen.extractLsb' 32 32) ∧
      (tail.length + 1 + z) % 64 = 56 ∧
      (∀ z', (tail.length + 1 + z') % 64 = 56 → z ≤ z') ∧
      (tail.length ≤ 55 → z = 55 - tail.length ∧ (pad tail dlen).length = 64) ∧
      (56 ≤ tail.length → z = 119 - tail.length ∧ (pad tail dlen).length = 128)

/-- 40_digest160.md R127: finishing compresses the one padded block, or the two, and serialises the
five words little-endian. -/
def Obligations.FinishCompressesOnceOrTwice : Prop :=
  (∀ st : Stream, st.tail.length ≤ 55 →
    finish st = serialise (compress st.h (pad st.tail st.dlen))) ∧
  (∀ st : Stream, 56 ≤ st.tail.length → st.tail.length ≤ 63 →
    finish st = serialise (compress (compress st.h ((pad st.tail st.dlen).take 64))
      ((pad st.tail st.dlen).drop 64))) ∧
  (∀ h : Chain, serialise h = le32 h.h0 ++ le32 h.h1 ++ le32 h.h2 ++ le32 h.h3 ++ le32 h.h4) ∧
  serialise ⟨0xA585119C, 0x54FCE9C5, 0x97082861, 0x48F5E87E, 0x318D25B2⟩ =
    [0x9C, 0x11, 0x85, 0xA5, 0xC5, 0xE9, 0xFC, 0x54, 0x61, 0x28, 0x08, 0x97, 0x7E, 0xE8, 0xF5,
     0x48, 0xB2, 0x25, 0x8D, 0x31]

/-- 40_digest160.md R133: D160.DIGEST, word 0x00000004; it equals D160.INIT, D160.UPDATE, D160.FINAL in
that order, from every state, in everything the host or the block holds afterwards (this the spec's
own inference, "derived: from rules R128, R130, R131, R132"); and the rule's example. -/
def Obligations.D160DigestResult : Prop :=
  encode .d160Digest = 0x00000004 ∧
  (∀ s : State,
    exec .d160Digest s = .next { s with
      obuf := digest160 s.ibuf
      stream := ⟨⟨0x67452301, 0xEFCDAB89, 0x98BADCFE, 0x10325476, 0xC3D2E1F0⟩, [], 0⟩
      errCode := 0 } ∧
    (digest160 s.ibuf).length = 20) ∧
  (∀ s : State, ∃ t, runMoves [cmd .d160Digest] s = .next t ∧
    runMoves [cmd .d160Init, cmd .d160Update, cmd .d160Final] s = .next t) ∧
  digest160 [0x61] =
    [0x0B, 0xDC, 0x9D, 0x2D, 0x25, 0x6B, 0x3E, 0xE9, 0xDA, 0xAE, 0x34, 0x7B, 0xE6, 0xF4, 0xDC,
     0x83, 0x5A, 0x46, 0x7F, 0xFE]

/-- 40_digest160.md R125, R128, R131: a message streamed in two pieces, each loaded after ICLR,
gives the digest of the whole message, however long it is, wherever it is cut. The spec's own
inference in R125 and R128. -/
def Obligations.StreamedPiecesDigestTheWhole : Prop :=
  ∀ (s : State) (B C : Bytes), B.length ≤ Config.bufcap → C.length ≤ Config.bufcap →
    ∃ t, runMoves ([cmd .d160Init] ++ load B ++ [cmd .d160Update] ++ load C ++
        [cmd .d160Update, cmd .d160Final]) s = .next t ∧
      t.obuf = digest160 (B ++ C) ∧ t.ibuf = C ∧ t.stream = Stream.initial ∧
      t.errCode = 0 ∧ t.errf = s.errf

/-- 40_digest160.md R128: the digest is `Compress` folded from IV over the 64-byte blocks of the
message padded as a whole; there are `(len(B) + 8) div 64 + 1` of them. The spec's own inference
from R125 to R127. -/
def Obligations.DigestIsTheFoldOverThePaddedMessage : Prop :=
  ∀ B : Bytes,
    (wholePad B).length = 64 * ((B.length + 8) / 64 + 1) ∧
    digest160 B = serialise (compressBlocks ((B.length + 8) / 64 + 1) Chain.iv (wholePad B))

/-- 40_digest160.md R112 to R119: the compression of every block from every chaining state, by the
tables as the spec prints them: the message words, the five functions, the start of each chain, each
of its 80 steps, and the combination; the example of R119 (the block of the empty message); and line
7 of 95_test_vectors.md 3.2, whose first block has sixteen distinct words, none zero. -/
def Obligations.CompressionStepByStep : Prop :=
  let R : List Nat :=
    ([0, 1, 2, 3, 4, 5, 6, 7, 8, 9, 10, 11, 12, 13, 14, 15] ++
     [7, 4, 13, 1, 10, 6, 15, 3, 12, 0, 9, 5, 2, 14, 11, 8] ++
     [3, 10, 14, 4, 9, 15, 8, 1, 2, 7, 0, 6, 13, 11, 5, 12] ++
     [1, 9, 11, 10, 0, 8, 12, 4, 13, 3, 7, 15, 14, 5, 6, 2] ++
     [4, 0, 5, 9, 7, 12, 2, 10, 14, 1, 3, 8, 11, 6, 15, 13])
  let R' : List Nat :=
    ([5, 14, 7, 0, 9, 2, 11, 4, 13, 6, 15, 8, 1, 10, 3, 12] ++
     [6, 11, 3, 7, 0, 13, 5, 10, 14, 15, 8, 12, 4, 9, 1, 2] ++
     [15, 5, 1, 3, 7, 14, 6, 9, 11, 8, 12, 2, 10, 0, 4, 13] ++
     [8, 6, 4, 1, 3, 11, 15, 0, 5, 12, 2, 13, 9, 7, 10, 14] ++
     [12, 15, 10, 4, 1, 5, 8, 7, 6, 2, 13, 14, 0, 3, 9, 11])
  let S : List Nat :=
    ([11, 14, 15, 12, 5, 8, 7, 9, 11, 13, 14, 15, 6, 7, 9, 8] ++
     [7, 6, 8, 13, 11, 9, 7, 15, 7, 12, 15, 9, 11, 7, 13, 12] ++
     [11, 13, 6, 7, 14, 9, 13, 15, 14, 8, 13, 6, 5, 12, 7, 5] ++
     [11, 12, 14, 15, 14, 15, 9, 8, 9, 14, 5, 6, 8, 6, 5, 12] ++
     [9, 15, 5, 11, 6, 8, 13, 12, 5, 12, 13, 14, 11, 8, 5, 6])
  let S' : List Nat :=
    ([8, 9, 9, 11, 13, 15, 15, 5, 7, 7, 8, 11, 14, 14, 12, 6] ++
     [9, 13, 15, 7, 12, 8, 9, 11, 7, 7, 12, 7, 6, 15, 13, 11] ++
     [9, 7, 15, 11, 8, 6, 6, 14, 12, 13, 5, 14, 13, 13, 7, 5] ++
     [15, 5, 8, 11, 14, 14, 6, 14, 6, 9, 12, 9, 12, 5, 15, 8] ++
     [8, 5, 12, 9, 12, 5, 14, 6, 8, 13, 6, 5, 15, 13, 11, 11])
  let K : List Word := [0x00000000, 0x5A827999, 0x6ED9EBA1, 0x8F1BBCDC, 0xA953FD4E]
  let K' : List Word := [0x50A28BE6, 0x5C4DD124, 0x6D703EF3, 0x7A6D76E9, 0x00000000]
  (∀ x y z : Word, boolFn 1 x y z = x ^^^ y ^^^ z ∧ boolFn 2 x y z = (x &&& y) ||| (~~~x &&& z) ∧
    boolFn 3 x y z = (x ||| ~~~y) ^^^ z ∧ boolFn 4 x y z = (x &&& z) ||| (y &&& ~~~z) ∧
    boolFn 5 x y z = x ^^^ (y ||| ~~~z)) ∧
  (∀ (blk : Bytes) (i : Nat), blk.length = 64 → i < 16 → ((blockWords blk).getD i 0).toNat =
    (blk.getD (4 * i) 0).toNat + 2 ^ 8 * (blk.getD (4 * i + 1) 0).toNat +
    2 ^ 16 * (blk.getD (4 * i + 2) 0).toNat + 2 ^ 24 * (blk.getD (4 * i + 3) 0).toNat) ∧
  (∀ (X : List Word) (h : Chain),
    mainChain X h 0 = ⟨h.h0, h.h1, h.h2, h.h3, h.h4⟩ ∧
    parChain X h 0 = ⟨h.h0, h.h1, h.h2, h.h3, h.h4⟩ ∧
    ∀ j < 80,
      (let w := mainChain X h j
       mainChain X h (j + 1) =
        ⟨w.e, (w.a + boolFn (j / 16 + 1) w.b w.c w.d + X.getD (R.getD j 0) 0 +
          K.getD (j / 16) 0).rotateLeft (S.getD j 0) + w.e, w.b, w.c.rotateLeft 10, w.d⟩) ∧
      (let w := parChain X h j
       parChain X h (j + 1) =
        ⟨w.e, (w.a + boolFn (5 - j / 16) w.b w.c w.d + X.getD (R'.getD j 0) 0 +
          K'.getD (j / 16) 0).rotateLeft (S'.getD j 0) + w.e, w.b, w.c.rotateLeft 10, w.d⟩)) ∧
  (∀ (h : Chain) (blk : Bytes),
    let m := mainChain (blockWords blk) h 80
    let p := parChain (blockWords blk) h 80
    compress h blk = ⟨h.h1 + m.c + p.d, h.h2 + m.d + p.e, h.h3 + m.e + p.a, h.h4 + m.a + p.b,
      h.h0 + m.b + p.c⟩) ∧
  mainChain (blockWords (pad [] 0)) Chain.iv 80 =
    ⟨0x594637A7, 0x215D97B3, 0xEBA027EB, 0xB99CDC7A, 0xEC4DCDFF⟩ ∧
  parChain (blockWords (pad [] 0)) Chain.iv 80 =
    ⟨0x9A8805EC, 0x2BDCCEE7, 0xA8EA6AFE, 0xCA173E28, 0x02A5304D⟩ ∧
  compress Chain.iv (pad [] 0) =
    ⟨0xA585119C, 0x54FCE9C5, 0x97082861, 0x48F5E87E, 0x318D25B2⟩ ∧
  digest160 ("ABCDEFGHIJKLMNOPQRSTUVWXYZabcdefghijklmnopqrstuvwxyz0123456789".toList.map
      fun c => BitVec.ofNat 8 c.toNat) =
    [0xB0, 0xE2, 0x0B, 0x6E, 0x31, 0x16, 0x64, 0x02, 0x86, 0xED, 0x3A, 0x87, 0xA5, 0x71, 0x30,
     0x79, 0xB2, 0x1F, 0x51, 0x89]

/-! ### The base-58 converter -/

/-- 41_base58check.md R150: the alphabet, the digit value of each symbol, and the bytes that have
none. -/
def Obligations.AlphabetAndDigitValues : Prop :=
  alphabet = "123456789ABCDEFGHJKLMNPQRSTUVWXYZabcdefghijkmnopqrstuvwxyz".toList.map
    (fun c => BitVec.ofNat 8 c.toNat) ∧
  alphabet.length = 58 ∧ alphabet.Nodup ∧ sym 0 = 0x31 ∧
  (∀ d < 58, val (sym d) = some d) ∧
  (∀ (c : Byte) (d : Nat), val c = some d → d < 58 ∧ sym d = c) ∧
  (∀ c : Byte, val c = none ↔
    c.toNat < 0x31 ∨ 0x7A < c.toNat ∨ (0x3A ≤ c.toNat ∧ c.toNat ≤ 0x40) ∨
    (0x5B ≤ c.toNat ∧ c.toNat ≤ 0x60) ∨ c = 0x30 ∨ c = 0x49 ∨ c = 0x4F ∨ c = 0x6C)

/-- 41_base58check.md R155: B58.ENC, word 0x00000010; CapacityExceeded (7) when the text does not
fit, which 749 bytes always do in 1024; every leading zero byte is one zero-symbol; and the rule's
examples. -/
def Obligations.B58EncResult : Prop :=
  encode .b58Enc = 0x00000010 ∧
  ∀ s : State,
    ((b58Enc s.ibuf).length ≤ Config.bufcap →
      exec .b58Enc s = .next { s with obuf := b58Enc s.ibuf, errCode := 0 }) ∧
    (Config.bufcap < (b58Enc s.ibuf).length →
      exec .b58Enc s = .next { s with errCode := 7, errf := true }) ∧
    (∀ (z : Nat) (R : Bytes), s.ibuf = List.replicate z 0x00 ++ R →
      b58Enc s.ibuf = List.replicate z 0x31 ++ b58Enc R) ∧
    (s.ibuf.length ≤ 749 → (b58Enc s.ibuf).length ≤ 1024) ∧
    b58Enc [] = [] ∧
    b58Enc [0x61] = [0x32, 0x67] ∧
    b58Enc [0x00, 0x00, 0x28, 0x7F, 0xB4, 0xCD] = [0x31, 0x31, 0x32, 0x33, 0x33, 0x51, 0x43, 0x34]

/-- 41_base58check.md R156: B58.DEC, word 0x00000011; it succeeds exactly when every byte of IN is
in the alphabet, and its output then fits; otherwise InvalidSymbol (3); and the rule's corner cases
and example. -/
def Obligations.B58DecResult : Prop :=
  encode .b58Dec = 0x00000011 ∧
  ∀ s : State,
    ((∀ c ∈ s.ibuf, c ∈ alphabet) → ∃ B, b58Dec s.ibuf = some B ∧ B.length ≤ s.ibuf.length ∧
      exec .b58Dec s = .next { s with obuf := B, errCode := 0 }) ∧
    ((∃ c ∈ s.ibuf, c ∉ alphabet) → b58Dec s.ibuf = none ∧
      exec .b58Dec s = .next { s with errCode := 3, errf := true }) ∧
    b58Dec [] = some [] ∧
    b58Dec [0x31] = some [0x00] ∧
    b58Dec [0x31, 0x31, 0x31] = some [0x00, 0x00, 0x00] ∧
    b58Dec [0x7A] = some [0x39] ∧
    b58Dec [0x32, 0x31] = some [0x3A] ∧
    b58Dec [0x32, 0x67] = some [0x61] ∧
    (∀ c ∈ [(0x00 : Byte), 0x20, 0x0A, 0x30, 0x4F, 0x49, 0x6C], c ∉ alphabet)

/-- 41_base58check.md R154 (a): decoding the encoding of any byte string gives it back. -/
def Obligations.Base58DecodeInvertsEncode : Prop :=
  ∀ B : Bytes, b58Dec (b58Enc B) = some B

/-- 41_base58check.md R154 (b): every string of alphabet bytes decodes, and encoding the result
gives it back. The spec's own inference. -/
def Obligations.Base58EncodeInvertsDecode : Prop :=
  ∀ S : Bytes, (∀ c ∈ S, c ∈ alphabet) → ∃ B, b58Dec S = some B ∧ b58Enc B = S

/-- 41_base58check.md R154 (c): the length bounds, with 1.3658 as 13658/10000, and its two
instances. The spec's own inference from R151 and R152. -/
def Obligations.Base58LengthBounds : Prop :=
  (∀ S B : Bytes, b58Dec S = some B → B.length ≤ S.length) ∧
  (∀ B : Bytes, (b58Enc B).length ≤ (13658 * B.length + 9999) / 10000) ∧
  (∀ B : Bytes, B.length = 25 → (b58Enc B).length ≤ 35) ∧
  (∀ B : Bytes, B.length = 37 → (b58Enc B).length ≤ 51)

/-! ### The checksum -/

/-- 41_base58check.md R157: CHK.ATTACH, word 0x00000012; CapacityExceeded (7) when four more bytes do
not fit. -/
def Obligations.ChkAttachResult : Prop :=
  encode .chkAttach = 0x00000012 ∧
  ∀ s : State,
    (s.ibuf.length + 4 ≤ Config.bufcap →
      exec .chkAttach s = .next { s with
        obuf := s.ibuf ++ (Config.h256 (Config.h256 s.ibuf)).take 4, errCode := 0 } ∧
      (s.ibuf ++ (Config.h256 (Config.h256 s.ibuf)).take 4).length = s.ibuf.length + 4) ∧
    (Config.bufcap < s.ibuf.length + 4 →
      exec .chkAttach s = .next { s with errCode := 7, errf := true })

/-- 41_base58check.md R158: CHK.VERIFY, word 0x00000013, for IN = P ‖ C with C the last four bytes;
InvalidLength (1) for fewer than four bytes, then ChecksumMismatch (4). -/
def Obligations.ChkVerifyResult : Prop :=
  encode .chkVerify = 0x00000013 ∧
  ∀ s : State,
    (s.ibuf.length < 4 → exec .chkVerify s = .next { s with errCode := 1, errf := true }) ∧
    (∀ P C : Bytes, s.ibuf = P ++ C → C.length = 4 →
      (Config.h256 (Config.h256 P)).take 4 ≠ C →
      exec .chkVerify s = .next { s with errCode := 4, errf := true }) ∧
    (∀ P C : Bytes, s.ibuf = P ++ C → C.length = 4 →
      (Config.h256 (Config.h256 P)).take 4 = C →
      exec .chkVerify s = .next { s with obuf := P, errCode := 0 })

/-- 41_base58check.md R158: CHK.VERIFY after CHK.ATTACH and MOVE succeeds and returns the payload,
whatever H256 is. The spec's own inference from R153 and R157. -/
def Obligations.VerifyUndoesAttach : Prop :=
  ∀ s : State, s.ibuf.length + 4 ≤ Config.bufcap →
    ∃ t, runMoves (cmd .chkAttach :: moveOut ++ [cmd .chkVerify]) s = .next t ∧
      t.obuf = s.ibuf ∧ t.errCode = 0 ∧ t.errf = s.errf ∧ t.stream = s.stream

/-- 30_encoding.md R89, 41_base58check.md R154, R158: B58C.ENC, MOVE, B58C.DEC gives the payload
back, whatever H256 is, when the text fits. Inferred from these rules. -/
def Obligations.Base58CheckRoundTrip : Prop :=
  ∀ s : State, s.ibuf.length + 4 ≤ Config.bufcap →
    (b58Enc (attach s.ibuf)).length ≤ Config.bufcap →
    ∃ t, runMoves (b58cEnc ++ moveOut ++ b58cDec) s = .next t ∧
      t.obuf = s.ibuf ∧ t.errCode = 0 ∧ t.errf = s.errf ∧ t.stream = s.stream

/-! ### The key formatter -/

/-- 42_keyformat.md R171: KF.FORMAT, word 0x00000020; InvalidLength (1) unless ILEN = 64. -/
def Obligations.KfFormatResult : Prop :=
  encode .kfFormat = 0x00000020 ∧
  ∀ s : State,
    (s.ibuf.length = 64 →
      exec .kfFormat s = .next { s with obuf := [0x04] ++ s.ibuf, errCode := 0 } ∧
      ([0x04] ++ s.ibuf).length = 65) ∧
    (s.ibuf.length ≠ 64 → exec .kfFormat s = .next { s with errCode := 1, errf := true })

/-- 42_keyformat.md R172: KF.COMPRESS, word 0x00000021, on a 65-byte input m ‖ X ‖ Z ‖ [y] with X of 32
bytes: marker by the low bit of y, then X; InvalidFormat (2) for a wrong length or marker. -/
def Obligations.KfCompressResult : Prop :=
  encode .kfCompress = 0x00000021 ∧
  ∀ s : State,
    (∀ (X Z : Bytes) (y : Byte), X.length = 32 → Z.length = 31 →
      s.ibuf = [0x04] ++ X ++ Z ++ [y] →
      exec .kfCompress s = .next { s with
        obuf := [if y.getLsbD 0 then 0x03 else 0x02] ++ X, errCode := 0 }) ∧
    (s.ibuf.length ≠ 65 → exec .kfCompress s = .next { s with errCode := 2, errf := true }) ∧
    (s.ibuf.head? ≠ some 0x04 → exec .kfCompress s = .next { s with errCode := 2, errf := true })

/-- 10_state.md R41, 42_keyformat.md R171, R172, R173: loading X ‖ Y, KF.FORMAT, MOVE, KF.COMPRESS
gives the parity marker of the integer Y and X, from every state. Inferred from these rules. -/
def Obligations.PointToCompressedKey : Prop :=
  ∀ (s : State) (X Y : Bytes), X.length = 32 → Y.length = 32 →
    ∃ t, runMoves (load (X ++ Y) ++ [cmd .kfFormat] ++ moveOut ++ [cmd .kfCompress]) s = .next t ∧
      t.obuf = (if be Y % 2 = 0 then 0x02 else 0x03) :: X ∧
      t.ibuf = [0x04] ++ X ++ Y ∧ t.errCode = 0 ∧ t.errf = s.errf ∧ t.stream = s.stream

/-! ### The derivation chains -/

/-- 43_pipeline.md R180: DRV.ADDR #aa, word 0x0000aa30; InvalidLength (1) unless ILEN = 33, with the
stream untouched. -/
def Obligations.DrvAddrResult : Prop :=
  ∀ a : Byte,
    encode (.drvAddr a) = 0x00000030 ||| (a.zeroExtend 32 <<< 8) ∧
    ∀ s : State,
      (s.ibuf.length = 33 →
        exec (.drvAddr a) s = .next { s with
          obuf :=
            let p := [a] ++ digest160 (Config.h256 s.ibuf)
            b58Enc (p ++ (Config.h256 (Config.h256 p)).take 4)
          stream := ⟨⟨0x67452301, 0xEFCDAB89, 0x98BADCFE, 0x10325476, 0xC3D2E1F0⟩, [], 0⟩
          errCode := 0 }) ∧
      (s.ibuf.length ≠ 33 → exec (.drvAddr a) s = .next { s with errCode := 1, errf := true })

/-- 43_pipeline.md R181: DRV.WIF #aa, word 0x0000aa31, with no compression-flag byte; InvalidLength
(1) unless ILEN = 32. -/
def Obligations.DrvWifResult : Prop :=
  ∀ a : Byte,
    encode (.drvWif a) = 0x00000031 ||| (a.zeroExtend 32 <<< 8) ∧
    ∀ s : State,
      (s.ibuf.length = 32 →
        exec (.drvWif a) s = .next { s with
          obuf :=
            let p := [a] ++ s.ibuf
            b58Enc (p ++ (Config.h256 (Config.h256 p)).take 4)
          errCode := 0 }) ∧
      (s.ibuf.length ≠ 32 → exec (.drvWif a) s = .next { s with errCode := 1, errf := true })

/-- 43_pipeline.md R182: IMP.WIF, word 0x00000032, always fails with UnsupportedOperation (5), and
changes nothing else. -/
def Obligations.ImpWifResult : Prop :=
  encode .impWif = 0x00000032 ∧
  ∀ s : State, exec .impWif s = .next { s with errCode := 5, errf := true }

/-- 43_pipeline.md R183 (a): DRV.ADDR equals the sequence of primitive commands, from the same state
with 33 input bytes: same output, stream and error record. The spec's own inference from R180, R181
and R89. -/
def Obligations.DrvAddrEqualsPrimitives : Prop :=
  ∀ (s : State) (a : Byte), s.ibuf.length = 33 →
    ∃ t u, runMoves [cmd (.drvAddr a)] s = .next t ∧
      runMoves ([cmd .extH256] ++ moveOut ++
        [cmd .d160Digest, cmd .iclr, pushMove a, cmd .xfer, cmd .chkAttach] ++ moveOut ++
        [cmd .b58Enc]) s = .next u ∧
      t.obuf = u.obuf ∧ t.stream = u.stream ∧ t.errCode = u.errCode ∧ t.errf = u.errf ∧
      t.errCode = 0 ∧ t.ibuf = s.ibuf ∧ u.ibuf.length = 25

/-- 43_pipeline.md R183 (b): DRV.WIF equals the sequence of primitive commands. The spec's own
inference from R180, R181 and R89. -/
def Obligations.DrvWifEqualsPrimitives : Prop :=
  ∀ (s : State) (a : Byte), s.ibuf.length = 32 →
    ∃ t u, runMoves [cmd (.drvWif a)] s = .next t ∧
      runMoves ([cmd .iclr, pushMove a] ++ pushb s.ibuf ++ [cmd .chkAttach] ++ moveOut ++
        [cmd .b58Enc]) s = .next u ∧
      t.obuf = u.obuf ∧ t.errCode = u.errCode ∧ t.errf = u.errf ∧ t.errCode = 0 ∧
      t.stream = s.stream ∧ u.stream = s.stream

/-- 43_pipeline.md R181, 70_reset_and_hazards.md R259: the length of the WIF text by its prefix
byte, and the leading '5' of prefix 0x80, for every key and whatever H256 is. The spec's own
inference in both rules. -/
def Obligations.WifTextLength : Prop :=
  ∀ (s : State) (a : Byte), s.ibuf.length = 32 →
    ∃ t, exec (.drvWif a) s = .next t ∧
      (0x1E ≤ a.toNat → t.obuf.length = 51) ∧
      (0x01 ≤ a.toNat → a.toNat ≤ 0x1C → t.obuf.length = 50) ∧
      (a = 0x80 → t.obuf.head? = some 0x35)

/-- 43_pipeline.md R180, 70_reset_and_hazards.md R259: the length of the address text: at most 34
symbols and a leading '1' for prefix 0x00, 33 to 35 otherwise, never below 25. Inferred from R180's
corner cases. -/
def Obligations.AddressTextLength : Prop :=
  ∀ (s : State) (a : Byte), s.ibuf.length = 33 →
    ∃ t, exec (.drvAddr a) s = .next t ∧ 25 ≤ t.obuf.length ∧ t.obuf.length ≤ 35 ∧
      (a = 0x00 → t.obuf.length ≤ 34 ∧ t.obuf.head? = some 0x31) ∧
      (a ≠ 0x00 → 33 ≤ t.obuf.length)

/-- 48_host_context.md R200: the host's address procedure for a point (X, Y) (LOAD, KF.FORMAT, MOVE,
KF.COMPRESS, MOVE, DRV.ADDR) delivers the address of the compressed key, from every state, whatever
H256 is. Inferred from R171, R172, R180 and R190. -/
def Obligations.PointToAddress : Prop :=
  ∀ (s : State) (X Y : Bytes) (a : Byte), X.length = 32 → Y.length = 32 →
    ∃ t, runMoves (addressProcedure X Y a) s = .next t ∧ t.errCode = 0 ∧ t.errf = s.errf ∧
      t.obuf =
        let key := (if be Y % 2 = 0 then 0x02 else 0x03) :: X
        let p := a :: digest160 (Config.h256 key)
        b58Enc (p ++ (Config.h256 (Config.h256 p)).take 4)

/-! ### The buffer, system and external-digest commands -/

/-- 44_buffer_system.md R190: XFER, word 0x00000040; CapacityExceeded (7) when the sum does not fit. -/
def Obligations.XferResult : Prop :=
  encode .xfer = 0x00000040 ∧
  ∀ s : State,
    (s.ibuf.length + s.obuf.length ≤ Config.bufcap →
      exec .xfer s = .next { s with ibuf := s.ibuf ++ s.obuf, errCode := 0 }) ∧
    (Config.bufcap < s.ibuf.length + s.obuf.length →
      exec .xfer s = .next { s with errCode := 7, errf := true })

/-- 44_buffer_system.md R191: ICLR, word 0x00000042. -/
def Obligations.IclrResult : Prop :=
  encode .iclr = 0x00000042 ∧
  ∀ s : State, exec .iclr s = .next { s with ibuf := [], errCode := 0 }

/-- 44_buffer_system.md R192: CLRERR, word 0x00000041; a step that clears the sticky flag is this
command or reset. That a step is one move of the host is the model's choice (log 3). -/
def Obligations.ClrerrResult : Prop :=
  encode .clrerr = 0x00000041 ∧
  (∀ s : State, exec .clrerr s = .next { s with errCode := 0, errf := false }) ∧
  (∀ s t : State, step s = .next t → s.errf = true → t.errf = false →
    ∃ rest, s.host.pending = .reset :: rest ∨
      s.host.pending = .write 4 0x0000 0x00000041 :: rest)

/-- 44_buffer_system.md R193: EXT.H256, word 0x00000050; 32 bytes out. -/
def Obligations.ExtH256Result : Prop :=
  encode .extH256 = 0x00000050 ∧
  ∀ s : State,
    exec .extH256 s = .next { s with obuf := Config.h256 s.ibuf, errCode := 0 } ∧
    (Config.h256 s.ibuf).length = 32

/-! ### The whole machine -/

/-- 10_state.md R26, R27, R31, R33, 60_exceptions.md R220: every step keeps the block's invariant,
from every state that meets it: the buffers fit, the tail follows the count, and the error record is
legal. R27 is the spec's own inference; the rest is stated by the rules named. That a step is one
move is log 3. -/
def Obligations.StepKeepsTheInvariant : Prop :=
  ∀ s t : State, s.Inv → step s = .next t → t.Inv

/-- 10_state.md R27, R45: the reset state meets the invariant. -/
def Obligations.ResetMeetsTheInvariant : Prop := State.reset.Inv

/-- 60_exceptions.md R230: a CMD write that ends with a nonzero code has changed nothing but the code
and the flag, whatever word was written; no code above 7 is ever written (R220). -/
def Obligations.FailureChangesOnlyCodeAndFlag : Prop :=
  ∀ (v : Word) (s : State), ∃ t, runCommand v s = .next t ∧ t.errCode.toNat ≤ 7 ∧
    (t.errCode ≠ 0 → t = { s with errCode := t.errCode, errf := true })

/-- 60_exceptions.md R229: a command that succeeds writes code 0 and leaves the sticky flag, which
CLRERR alone clears. -/
def Obligations.SuccessKeepsTheStickyFlag : Prop :=
  (∀ (i : Instr) (s t : State), exec i s = .next t → t.errCode = 0 → i ≠ .clrerr →
    t.errf = s.errf) ∧
  (∀ s t : State, exec .clrerr s = .next t → t.errCode = 0 ∧ t.errf = false)

/-- 30_encoding.md R86: which commands write which state: the stream, the input, the output (read
through the window, word by word); and no command touches the host side. R86 is the spec's own
inference from the command rules. -/
def Obligations.CommandsWriteOnlyTheirOwnState : Prop :=
  ∀ (i : Instr) (s : State), ∃ t, exec i s = .next t ∧
    (i ∉ [.d160Init, .d160Update, .d160Final, .d160Digest] → (∀ a, i ≠ .drvAddr a) →
      t.stream = s.stream) ∧
    (i ∉ [.xfer, .iclr] → t.ibuf = s.ibuf) ∧
    (i ∈ [.d160Init, .d160Update, .impWif, .xfer, .clrerr, .iclr] →
      t.olen = s.olen ∧
      ∀ k < 4096, memRead t 4 (0x4000 + 4 * k) = memRead s 4 (0x4000 + 4 * k)) ∧
    t.host = s.host

/-- 70_reset_and_hazards.md R253: what a command leaves is a function of IN, ARG and the stream (of
OBUF too for XFER), and of nothing else: not of ERR, of the flag, of the host, of an earlier output.
The spec's own inference from the command rules. -/
def Obligations.ResultsDependOnVisibleInputsOnly : Prop :=
  ∀ (i : Instr) (s s' : State), s.stream = s'.stream → s.ibuf = s'.ibuf →
    (i = .xfer → s.obuf = s'.obuf) →
    ∃ t t', exec i s = .next t ∧ exec i s' = .next t' ∧
      t.errCode = t'.errCode ∧ t.stream = t'.stream ∧ t.ibuf = t'.ibuf ∧
      (writesOut i = true → t.errCode = 0 → t.obuf = t'.obuf)

/-- 60_exceptions.md R232: the command after a failed one runs as if the failed one had not been
issued, apart from the flag. -/
def Obligations.FailedCommandLeavesNoTrace : Prop :=
  ∀ (v : Word) (i : Instr) (s t : State), runCommand v s = .next t → t.errCode ≠ 0 →
    ∃ u u', exec i t = .next u ∧ exec i s = .next u' ∧
      u.stream = u'.stream ∧ u.ibuf = u'.ibuf ∧ u.obuf = u'.obuf ∧ u.errCode = u'.errCode ∧
      (i ≠ .clrerr → u.errf = true)

/-! ### The bus -/

/-- 10_state.md R28, R29, R31, R33, R34, R37, R38, 20_memory.md R55: what the readable registers read
as, at their offsets; and a step whose move is a read leaves the block as it was, whatever is read,
and answers the register's value. That a step is one move of the host is the model's choice (log 3). -/
def Obligations.RegisterReads : Prop :=
  (∀ s : State,
    memRead s 4 0x0004 = .ok (if s.errf then 1 else 0) ∧
    memRead s 4 0x0008 = .ok (s.errCode.zeroExtend 32) ∧
    memRead s 4 0x000C = .ok (BitVec.ofNat 32 s.ibuf.length) ∧
    memRead s 4 0x0010 = .ok (BitVec.ofNat 32 s.obuf.length) ∧
    memRead s 4 0x0014 = .ok (BitVec.ofNat 32 Config.bufcap) ∧
    memRead s 4 0x0020 = .ok s.stream.h.h0 ∧
    memRead s 4 0x0024 = .ok s.stream.h.h1 ∧
    memRead s 4 0x0028 = .ok s.stream.h.h2 ∧
    memRead s 4 0x002C = .ok s.stream.h.h3 ∧
    memRead s 4 0x0030 = .ok s.stream.h.h4 ∧
    memRead s 4 0x0034 = .ok (s.stream.dlen.extractLsb' 0 32) ∧
    memRead s 4 0x0038 = .ok (s.stream.dlen.extractLsb' 32 32)) ∧
  (∀ (s : State) (width off : Nat) (rest : List HostMove),
    s.host.pending = .read width off :: rest →
    (∀ t, step s = .next t → s.SameBlock t) ∧
    (∀ v, memRead s width off = .ok v → step s = .next { s with
      host := { pending := rest, response := some (.value v), onBusError := s.host.onBusError } }))

/-- 10_state.md R39: the output window: word i reads as OBUF[i] in bits 7:0 for i < OLEN, and is a
bus error for i >= OLEN, which every i >= BUFCAP is when the output fits its buffer; reading it has
no side effect. That a step is one move of the host is the model's choice (log 3). -/
def Obligations.OutputWindowReads : Prop :=
  ∀ s : State,
    (∀ i < 4096,
      (∀ h : i < s.obuf.length, memRead s 4 (0x4000 + 4 * i) = .ok ((s.obuf[i]).zeroExtend 32)) ∧
      (s.obuf.length ≤ i → memRead s 4 (0x4000 + 4 * i) = .error .beyondOlen) ∧
      (∀ rest t, s.host.pending = .read 4 (0x4000 + 4 * i) :: rest → step s = .next t →
        s.SameBlock t)) ∧
    (Memory.wf s → ∀ i, Config.bufcap ≤ i →
      s.obuf.length ≤ i ∧ ∃ c, memRead s 4 (0x4000 + 4 * i) = .error c)

/-- 20_memory.md R53: a transaction is a bus error in exactly these cases, (a) to (h), and a bus
error returns no data and changes no state of the block; a write to CMD never is one. The form of
the answer to the host is the model's choice (logs 3, 4). -/
def Obligations.BusErrorsInExactlyTheseCases : Prop :=
  ∀ (s : State) (width off : Nat),
    ((∃ c, memRead s width off = .error c) ↔
      width ≠ 4 ∨ off % 4 ≠ 0 ∨ 0x8000 ≤ off ∨
      (off = 0x001C ∨ (0x003C ≤ off ∧ off < 0x4000)) ∨
      (off = 0x0000 ∨ off = 0x0018) ∨
      (0x4000 ≤ off ∧ s.obuf.length ≤ (off - 0x4000) / 4)) ∧
    ((∃ c, memWritePort s width off = .error c) ↔
      width ≠ 4 ∨ off % 4 ≠ 0 ∨ 0x8000 ≤ off ∨
      (off = 0x001C ∨ (0x003C ≤ off ∧ off < 0x4000)) ∨
      (off ∈ [0x0004, 0x0008, 0x000C, 0x0010, 0x0014, 0x0020, 0x0024, 0x0028, 0x002C, 0x0030,
        0x0034, 0x0038] ∨ 0x4000 ≤ off) ∨
      (off = 0x0018 ∧ Config.bufcap ≤ s.ibuf.length)) ∧
    memWritePort s 4 0x0000 = .ok .cmd ∧
    (∀ c t, busError c s = .next t → s.SameBlock t ∧ t.host.response = some .busError)

/-- 60_exceptions.md R235: a step whose move is a bus error, a read or a write, answers the error
response and leaves the block as it was when the host goes on, and is the named fault of the host's
program when the host ends its run there (the two policies are the model's choice, log 4). -/
def Obligations.BusErrorStep : Prop :=
  ∀ (s : State) (m : HostMove) (rest : List HostMove) (c : BusCause),
    s.host.pending = m :: rest →
    ((∃ width off, m = .read width off ∧ memRead s width off = .error c) ∨
     (∃ width off v, m = .write width off v ∧ memWritePort s width off = .error c)) →
    (s.host.onBusError = .goesOn → step s = .next { s with
      host := { pending := rest, response := some .busError, onBusError := .goesOn } }) ∧
    (s.host.onBusError = .stops → step s = .fault (.busError c))

/-- 10_state.md R36: a write of IPUSH with room appends bits 7:0 and changes neither ERR nor STATUS
nor anything else; with ILEN = BUFCAP it is a bus error that changes nothing; a read is a bus error.
That a step is one move of the host, and the form of the answer, are the model's choice (log 3). -/
def Obligations.IpushAppendsAByte : Prop :=
  (∀ (s : State) (v : Word) (rest : List HostMove), s.host.pending = .write 4 0x0018 v :: rest →
    (s.ibuf.length < Config.bufcap → step s = .next { s with
      ibuf := s.ibuf ++ [v.extractLsb' 0 8]
      host := { pending := rest, response := some .done, onBusError := s.host.onBusError } }) ∧
    (s.ibuf.length = Config.bufcap → memWritePort s 4 0x0018 = .error .inputFull ∧
      ∀ t, step s = .next t → s.SameBlock t)) ∧
  (∀ s : State, memRead s 4 0x0018 = .error .readOfWriteOnly)

/-- 10_state.md R28: ERR changes only by a write of CMD (or reset). That a step is one move of the
host is the model's choice (log 3). -/
def Obligations.ErrorCodeChangesOnlyByCommandOrReset : Prop :=
  ∀ s t : State, step s = .next t → t.errCode ≠ s.errCode →
    ∃ rest, s.host.pending = .reset :: rest ∨ ∃ v, s.host.pending = .write 4 0x0000 v :: rest

/-- 70_reset_and_hazards.md R255: no move but ICLR and reset takes a byte out of the input: the old
input stays a prefix of the new one. That a step is one move of the host is the model's choice (log
3). -/
def Obligations.InputShrinksOnlyByIclrOrReset : Prop :=
  ∀ s t : State, step s = .next t →
    s.ibuf <+: t.ibuf ∨ ∃ rest, s.host.pending = .reset :: rest ∨
      s.host.pending = .write 4 0x0000 0x00000042 :: rest

/-- 48_host_context.md R207, 30_encoding.md R87: every list of moves of a host that goes on at bus
errors runs to its end, from every state: nothing the host may do stops the block, and no command
fails to end. That a run is a list of moves is the model's choice (log 3); that H256 always answers
is the spec's assumption (R7, log 2). -/
def Obligations.EveryRunOfAGoingOnHostEnds : Prop :=
  ∀ (moves : List HostMove) (s : State), s.host.onBusError = .goesOn →
    SafeRun moves s

/-! ### The host -/

/-- 48_host_context.md R200: the host's procedure for one key, with its reads and its test of ERR after
every command, ends from every state with the two keys it wanted, the address and the WIF, whatever
H256 is, and with the private key in IBUF or, where it must not linger, overwritten; and a test that
shows a nonzero code ends a procedure there. Inferred from R171, R172, R180, R181; the form of a plan
is log 3. -/
def Obligations.HostProcedureForOneKey : Prop :=
  (∀ (w : KeyWishes) (key X Y : Bytes) (s : State),
    key.length = 32 → X.length = 32 → Y.length = 32 →
    let compressed := (if be Y % 2 = 0 then 0x02 else 0x03) :: X
    let a := w.addressPrefix :: digest160 (Config.h256 compressed)
    let c := w.wifPrefix :: key
    ∃ t, runPlan (keyPlan w key X Y) s = .next (.ok {
        uncompressed := if w.readUncompressed then some ([0x04] ++ X ++ Y) else none
        compressed := if w.readCompressed then some compressed else none
        address := b58Enc (a ++ (Config.h256 (Config.h256 a)).take 4)
        wif := b58Enc (c ++ (Config.h256 (Config.h256 c)).take 4) }, t) ∧
      t.errCode = 0 ∧ t.errf = s.errf ∧
      (w.scrub = false → t.ibuf = key) ∧ (w.scrub = true → t.ibuf = List.replicate 32 0x00)) ∧
  (∀ (i : Instr) (next : Procedure KeyReport) (s t : State), exec i s = .next t → t.errCode ≠ 0 →
    ∃ u, runPlan (tested i next) s = .next (.error (.code (t.errCode.zeroExtend 32)), u) ∧
      t.SameBlock u)

/-- 48_host_context.md R200, R207: the procedure for one key keeps the host's duties, for every private
key within its invariant, from every state, when the host owes no test and has no message in
progress; where the key must not linger it ends with the key overwritten. How each duty is read is
the model's choice (log 8). -/
def Obligations.HostProcedureIsDutiful : Prop :=
  ∀ (w : KeyWishes) (key X Y : Bytes) (d : Ledger) (s : State),
    key.length = 32 → be key < Config.curveOrder → X.length = 32 → Y.length = 32 →
    d.testOwed = false → d.streaming = false →
    dutiful w.scrub (keyPlan w key X Y) d s = true

/-- 48_host_context.md R207, 70_reset_and_hazards.md R254, R256: whatever moves a host makes that has no
other move than its duties leave it, what it remembers agrees with the block. A read of the output
window it may make finds code 0 and no stale result: OBUF is what the last command asked for an output
left there, that command passed, and so had every command its bytes came from. A D160.DIGEST or
DRV.ADDR it may issue finds no message in progress, and no move it may make changes the stream but a
D160.UPDATE, a D160.INIT, a D160.FINAL or a reset. How each duty is read is the model's choice (log 8). -/
def Obligations.DutifulHostIsNeverMisled : Prop :=
  ∀ (d d' : Ledger) (truth : Standing) (s s' : State) (h : List Event),
    s.Inv → d.Agrees truth s → DutifulRun d s h d' s' →
    s'.Inv ∧ d'.Agrees (truth.afterAll h) s' ∧
    (∀ i, moveAllowed d' s' (rd (.obufWord i)) = true →
      s'.errCode = 0 ∧ (truth.afterAll h).output = .sound ∧
      ∀ e, h.find? (fun e => asksOutput e.move) = some e →
        e.after.errCode = 0 ∧ s'.obuf = e.after.obuf) ∧
    (moveAllowed d' s' (cmd .d160Digest) = true → s'.stream = Stream.initial) ∧
    (∀ a, moveAllowed d' s' (cmd (.drvAddr a)) = true → s'.stream = Stream.initial) ∧
    (∀ m t, moveAllowed d' s' m = true → step (s'.setPending [m]) = .next t →
      t.stream ≠ s'.stream → m ∈ [cmd .d160Update, cmd .d160Init, cmd .d160Final, .reset])
end

