-- ==== Sys2Proof/Laws/Bytes.lean ====
section
/-! SUPPORT. Laws of the byte-order helpers and of radix conversion (spec 00_scope.md R12): what
`digitsOf` computes, said once through Mathlib's `Nat.digits`, and how a byte string splits into its
leading copies of a byte and the rest. -/

namespace Sys2Proof.Machine

/-! Byte order. -/

@[simp] theorem length_le32 (w : Word) : (le32 w).length = 4 := rfl

@[simp] theorem length_le64 (n : DWord) : (le64 n).length = 8 := rfl

/-- `LEW(LE32(w)) = w` (R12). -/
theorem lew_le32 (w : Word) : lew (le32 w) = w := by
  apply BitVec.eq_of_toNat_eq
  have := w.isLt
  simp [lew, le32, BitVec.extractLsb'_toNat, Nat.shiftRight_eq_div_pow]
  omega

/-! Big-endian integers. -/

@[simp] theorem be_nil : be [] = 0 := rfl

/-- `BE(B ‖ [b]) = 256*BE(B) + b` (R12). -/
@[simp] theorem be_append_singleton (B : Bytes) (b : Byte) : be (B ++ [b]) = 256 * be B + b.toNat := by
  simp [be]

/-- A big-endian integer read through Mathlib's little-endian digits. -/
theorem be_eq_ofDigits (B : Bytes) : be B = Nat.ofDigits 256 (B.map BitVec.toNat).reverse := by
  induction B using List.reverseRecOn with
  | nil => rfl
  | append_singleton B b ih => simp [ih, Nat.ofDigits_cons, Nat.add_comm]

/-- The integer of a concatenation. -/
theorem be_append (A B : Bytes) : be (A ++ B) = be A * 256 ^ B.length + be B := by
  induction B using List.reverseRecOn with
  | nil => simp
  | append_singleton B b ih =>
    rw [← List.append_assoc, be_append_singleton, ih, be_append_singleton, List.length_append]
    simp [pow_succ]
    ring

/-- An integer of `len(B)` bytes is below `256^len(B)`. -/
theorem be_lt (B : Bytes) : be B < 256 ^ B.length := by
  induction B using List.reverseRecOn with
  | nil => simp
  | append_singleton B b ih =>
    have := b.isLt
    simp only [be_append_singleton, List.length_append, List.length_singleton, pow_succ]
    omega

/-- Leading zero bytes do not count. -/
@[simp] theorem be_replicate_zero_append (z : Nat) (B : Bytes) :
    be (List.replicate z 0#8 ++ B) = be B := by
  have h : be (List.replicate z 0#8) = 0 := by
    induction z with
    | zero => rfl
    | succ z ih => simp [List.replicate_succ', ih]
  simp [be_append, h]

/-! Digits. -/

theorem digitsLoop_eq {b : Nat} (hb : 2 ≤ b) :
    ∀ (fuel n : Nat) (acc : List Nat), n < b ^ fuel →
      digitsLoop b fuel n acc = (Nat.digits b n).reverse ++ acc
  | 0, n, acc, h => by
    obtain rfl : n = 0 := by simpa using h
    simp [digitsLoop]
  | fuel + 1, n, acc, h => by
    by_cases hn : n = 0
    · simp [digitsLoop, hn]
    · have hlt : n / b < b ^ fuel := Nat.div_lt_of_lt_mul (by rwa [pow_succ, Nat.mul_comm] at h)
      rw [digitsLoop, if_neg hn, digitsLoop_eq hb fuel _ _ hlt,
        Nat.digits_def' (by omega) (Nat.pos_of_ne_zero hn)]
      simp

/-- `digitsOf` is Mathlib's digits, most significant first. -/
theorem digitsOf_eq {b : Nat} (hb : 2 ≤ b) (n : Nat) : digitsOf b n = (Nat.digits b n).reverse := by
  have h : n < b ^ (n.log2 + 1) :=
    lt_of_lt_of_le Nat.lt_log2_self (Nat.pow_le_pow_left hb _)
  simp [digitsOf, digitsLoop_eq hb _ _ _ h]

@[simp] theorem digitsOf_zero (b : Nat) : digitsOf b 0 = [] := by simp [digitsOf, digitsLoop]

theorem lt_of_mem_digitsOf {b n d : Nat} (hb : 2 ≤ b) (h : d ∈ digitsOf b n) : d < b := by
  rw [digitsOf_eq hb, List.mem_reverse] at h
  exact Nat.digits_lt_base (by omega) h

/-- The most significant digit is not zero. -/
theorem head?_digitsOf_ne_zero {b : Nat} (hb : 2 ≤ b) (n : Nat) : (digitsOf b n).head? ≠ some 0 := by
  rw [digitsOf_eq hb, List.head?_reverse]
  by_cases hn : n = 0
  · simp [hn]
  · rw [List.getLast?_eq_some_getLast (Nat.digits_ne_nil_iff_ne_zero.mpr hn)]
    simpa using Nat.getLast_digit_ne_zero b hn

/-- A digit string without a leading zero is the digits of its value. -/
theorem digitsOf_ofDigits {b : Nat} (hb : 2 ≤ b) (ds : List Nat) (hlt : ∀ d ∈ ds, d < b)
    (hhead : ds.head? ≠ some 0) : digitsOf b (Nat.ofDigits b ds.reverse) = ds := by
  rw [digitsOf_eq hb, Nat.digits_ofDigits b (by omega) _ (by simpa using hlt), List.reverse_reverse]
  intro hne h0
  rw [List.getLast_reverse] at h0
  apply hhead
  rw [← h0, List.head?_eq_some_head]

/-- How many digits: at most `k` exactly when the value is below `b^k`. -/
theorem length_digitsOf_le_iff {b : Nat} (hb : 2 ≤ b) (n k : Nat) :
    (digitsOf b n).length ≤ k ↔ n < b ^ k := by
  rw [digitsOf_eq hb, List.length_reverse]
  exact Nat.digits_length_le_iff (by omega) n

/-! The shortest byte string of an integer. -/

@[simp] theorem minBE_zero : minBE 0 = [] := by simp [minBE]

/-- `BE(MinBE(n)) = n` (R12). -/
@[simp] theorem be_minBE (n : Nat) : be (minBE n) = n := by
  have h : (digitsOf 256 n).map (fun d => (BitVec.ofNat 8 d).toNat) = digitsOf 256 n := by
    refine (List.map_congr_left fun d hd => ?_).trans (List.map_id _)
    exact Nat.mod_eq_of_lt (lt_of_mem_digitsOf (by decide) hd)
  rw [be_eq_ofDigits, minBE, List.map_map]
  simp only [Function.comp_def, h]
  rw [digitsOf_eq (by decide), List.reverse_reverse, Nat.ofDigits_digits]

/-- For n > 0 the first byte of `MinBE(n)` is not zero (R12). -/
theorem head?_minBE_ne_zero (n : Nat) : (minBE n).head? ≠ some 0 := by
  intro h
  rw [minBE, List.head?_map, Option.map_eq_some_iff] at h
  obtain ⟨d, hd, h0⟩ := h
  have hlt : d < 256 := lt_of_mem_digitsOf (n := n) (by decide) (List.mem_of_head? hd)
  have : d = 0 := by
    have := congrArg BitVec.toNat h0
    simpa [Nat.mod_eq_of_lt hlt] using this
  exact head?_digitsOf_ne_zero (by decide) n (this ▸ hd)

/-- A byte string without a leading zero is `MinBE` of its integer. -/
theorem minBE_be (B : Bytes) (h : B.head? ≠ some 0) : minBE (be B) = B := by
  have hd : digitsOf 256 (be B) = B.map BitVec.toNat := by
    rw [be_eq_ofDigits]
    apply digitsOf_ofDigits (by decide)
    · simp only [List.mem_map]
      rintro d ⟨b, -, rfl⟩
      exact b.isLt
    · rw [List.head?_map]
      intro h0
      obtain ⟨b, hb, hb0⟩ := Option.map_eq_some_iff.mp h0
      have hz : b = 0 := BitVec.eq_of_toNat_eq hb0
      exact h (hz ▸ hb)
  rw [minBE, hd, List.map_map]
  refine (List.map_congr_left fun b _ => ?_).trans (List.map_id _)
  simp

theorem length_minBE_le_iff (n k : Nat) : (minBE n).length ≤ k ↔ n < 256 ^ k := by
  rw [minBE, List.length_map, length_digitsOf_le_iff (by decide)]

/-! Leading copies of a byte. -/

/-- A byte string is its leading copies of `c` and a rest that does not begin with `c`. -/
theorem leading_split (c : Byte) (B : Bytes) :
    B = List.replicate (leading c B) c ++ B.dropWhile (· == c) := by
  refine (List.takeWhile_append_dropWhile (p := (· == c)) (l := B)).symm.trans ?_
  congr 1
  refine List.eq_replicate_iff.mpr ⟨rfl, fun b hb => ?_⟩
  simpa using List.mem_takeWhile_imp hb

theorem head?_dropWhile_ne (c : Byte) (B : Bytes) : (B.dropWhile (· == c)).head? ≠ some c := by
  intro h
  have := List.head?_dropWhile_not (p := (· == c)) B
  rw [h] at this
  simp at this

theorem leading_replicate_append (c : Byte) (z : Nat) (B : Bytes) (h : B.head? ≠ some c) :
    leading c (List.replicate z c ++ B) = z := by
  induction z with
  | zero => cases B <;> simp_all [leading]
  | succ z ih => simpa [leading, List.replicate_succ] using ih

theorem leading_le_length (c : Byte) (B : Bytes) : leading c B ≤ B.length :=
  (List.takeWhile_sublist _).length_le

end Sys2Proof.Machine
end

