-- ==== Sys2Proof/Laws/Base58.lean ====
section
/-! SUPPORT. Laws of the base-58 alphabet and of the two conversions (spec 41_base58check.md R150 to
R152): symbols and digit values are inverse, what the decoder accumulates, and lengths. -/

namespace Sys2Proof.Machine

/-! The alphabet (R150). -/

@[simp] theorem length_alphabet : alphabet.length = 58 := by decide

theorem val_sym {d : Nat} (h : d < 58) : val (sym d) = some d := by
  have : ∀ d : Fin 58, val (sym d) = some d.val := by decide
  exact this ⟨d, h⟩

theorem sym_mem {d : Nat} (h : d < 58) : sym d ∈ alphabet := by
  have : ∀ d : Fin 58, sym d ∈ alphabet := by decide
  exact this ⟨d, h⟩

theorem lt_of_val {c : Byte} {d : Nat} (h : val c = some d) : d < 58 := by
  have := List.findIdx?_eq_some_iff_findIdx_eq.mp h
  simpa using this.1

theorem sym_val {c : Byte} {d : Nat} (h : val c = some d) : sym d = c := by
  obtain ⟨h1, h2, -⟩ := List.findIdx?_eq_some_iff_getElem.mp h
  rw [sym, List.getD_eq_getElem?_getD, List.getElem?_eq_getElem h1, Option.getD_some]
  simpa using h2

/-- A byte has a digit value exactly when it is in the alphabet. -/
theorem val_eq_none_iff (c : Byte) : val c = none ↔ c ∉ alphabet := by
  rw [val, List.findIdx?_eq_none_iff]
  constructor
  · intro h hc
    simpa using h c hc
  · rintro h x hx
    have : x ≠ c := fun e => h (e ▸ hx)
    simpa using this

/-- The zero-symbol is the symbol of value 0, and of no other. -/
theorem sym_eq_zeroSymbol_iff {d : Nat} (h : d < 58) : sym d = zeroSymbol ↔ d = 0 := by
  have : ∀ d : Fin 58, sym d = zeroSymbol ↔ d.val = 0 := by decide
  exact this ⟨d, h⟩

/-! What the decoder accumulates (R152). -/

/-- The digit values of a string of alphabet bytes. -/
theorem exists_digits {S : Bytes} (h : ∀ c ∈ S, c ∈ alphabet) :
    ∃ ds : List Nat, (∀ d ∈ ds, d < 58) ∧ S = ds.map sym := by
  induction S with
  | nil => exact ⟨[], by simp⟩
  | cons c S ih =>
    obtain ⟨ds, hlt, rfl⟩ := ih fun x hx => h x (List.mem_cons_of_mem _ hx)
    cases hv : val c with
    | none => exact absurd (h c (List.mem_cons_self ..)) ((val_eq_none_iff c).mp hv)
    | some d =>
      refine ⟨d :: ds, ?_, by simp [sym_val hv]⟩
      rintro x hx
      obtain rfl | hx := List.mem_cons.mp hx
      · exact lt_of_val hv
      · exact hlt x hx

/-- On symbols the accumulator is the base-58 value. -/
theorem decodeFrom_map_sym {ds : List Nat} (h : ∀ d ∈ ds, d < 58) (n : Nat) :
    decodeFrom n (ds.map sym) = some (n * 58 ^ ds.length + Nat.ofDigits 58 ds.reverse) := by
  induction ds generalizing n with
  | nil => simp [decodeFrom]
  | cons d ds ih =>
    have hd := val_sym (h d (List.mem_cons_self ..))
    simp only [List.map_cons, decodeFrom, hd, ih (fun x hx => h x (List.mem_cons_of_mem _ hx)),
      List.length_cons, List.reverse_cons, Nat.ofDigits_append, List.length_reverse,
      Nat.ofDigits_singleton]
    ring_nf

/-- The decoder fails exactly on a string with a byte outside the alphabet. -/
theorem decodeFrom_eq_none_iff (n : Nat) (S : Bytes) :
    decodeFrom n S = none ↔ ∃ c ∈ S, c ∉ alphabet := by
  induction S generalizing n with
  | nil => simp [decodeFrom]
  | cons c S ih =>
    cases hv : val c with
    | none =>
      simp only [decodeFrom, hv, true_iff]
      exact ⟨c, List.mem_cons_self .., (val_eq_none_iff c).mp hv⟩
    | some d =>
      have hc : c ∈ alphabet := by
        by_contra hc
        simp [(val_eq_none_iff c).mpr hc] at hv
      simp only [decodeFrom, hv, ih, List.mem_cons, exists_eq_or_imp, not_true_eq_false, hc,
        false_or]

/-- The text of a digit string: zero-symbols for its leading zeros, then the rest. -/
theorem map_sym_head?_ne {ds : List Nat} (hlt : ∀ d ∈ ds, d < 58) (h : ds.head? ≠ some 0) :
    (ds.map sym).head? ≠ some zeroSymbol := by
  cases ds with
  | nil => simp
  | cons d ds =>
    simpa [sym_eq_zeroSymbol_iff (hlt d (List.mem_cons_self ..))] using h

/-! Lengths. -/

/-- Every leading zero byte is one symbol, and the rest as many as its value has digits. -/
theorem length_b58Enc (B : Bytes) :
    (b58Enc B).length = leading 0 B + (digitsOf 58 (be B)).length := by
  simp [b58Enc]

/-- Two symbols a byte are always enough. -/
theorem length_b58Enc_le (B : Bytes) : (b58Enc B).length ≤ 2 * B.length := by
  have hs := leading_split 0 B
  generalize hz : leading 0 B = z at hs
  generalize B.dropWhile (· == 0) = R at hs
  have hB : be B = be R := by rw [hs]; exact be_replicate_zero_append z R
  have hl : B.length = z + R.length := by rw [hs]; simp
  have hd : (digitsOf 58 (be R)).length ≤ 2 * R.length := by
    rw [length_digitsOf_le_iff (by decide), Nat.pow_mul]
    exact lt_of_lt_of_le (be_lt R) (Nat.pow_le_pow_left (by decide) _)
  rw [length_b58Enc, hz, hB]
  omega

/-- Decoding never lengthens a string (R154 c). -/
theorem length_le_of_b58Dec {S B : Bytes} (h : b58Dec S = some B) : B.length ≤ S.length := by
  have hok : ∀ c ∈ S, c ∈ alphabet := by
    by_contra hc
    push Not at hc
    simp [b58Dec, (decodeFrom_eq_none_iff 0 S).mpr hc] at h
  have hs := leading_split zeroSymbol S
  generalize hz : leading zeroSymbol S = z at hs
  generalize S.dropWhile (· == zeroSymbol) = R at hs
  obtain ⟨ds, hlt, rfl⟩ := exists_digits (S := R) fun c hc => hok c (by rw [hs]; simp [hc])
  have hn : decodeFrom 0 S = some (Nat.ofDigits 58 ds.reverse) := by
    have : S = (List.replicate z 0 ++ ds).map sym := by
      rw [hs]; simp [show sym 0 = zeroSymbol from rfl]
    rw [this, decodeFrom_map_sym (by
      intro d hd
      rcases List.mem_append.mp hd with hd | hd
      · simp [(List.mem_replicate.mp hd).2]
      · exact hlt d hd)]
    simp [Nat.ofDigits_append, Nat.ofDigits_replicate_zero]
  have hv : Nat.ofDigits 58 ds.reverse < 256 ^ ds.length := by
    refine lt_of_lt_of_le (Nat.ofDigits_lt_base_pow_length (by decide) (by simpa using hlt)) ?_
    simpa using Nat.pow_le_pow_left (show 58 ≤ 256 by decide) ds.length
  simp only [b58Dec, hn, Option.some.injEq] at h
  have := (length_minBE_le_iff _ _).mpr hv
  rw [← h, hz, hs]
  simpa using this

end Sys2Proof.Machine
end

