-- ==== Sys2Proof/Laws/Digest160.lean ====
section
/-! SUPPORT. Laws of the Digest160 unit (spec 40_digest160.md R125 to R127): absorbing byte by byte,
the length of the tail, and the lengths of the padding and of the output. -/

namespace Sys2Proof.Machine

/-! Absorbing (R125). -/

@[simp] theorem absorb_nil (st : Stream) : absorb st [] = st := rfl

@[simp] theorem absorb_cons (st : Stream) (b : Byte) (B : Bytes) :
    absorb st (b :: B) = absorb (absorbByte st b) B := rfl

/-- Absorbing in two parts is absorbing the whole. -/
theorem absorb_append (st : Stream) (A B : Bytes) : absorb st (A ++ B) = absorb (absorb st A) B :=
  List.foldl_append ..

/-- A byte that does not complete a block joins the tail. -/
theorem absorbByte_of_short {st : Stream} (h : st.tail.length < 63) (b : Byte) :
    absorbByte st b = ⟨st.h, st.tail ++ [b], st.dlen + 8⟩ := by
  simp only [absorbByte, List.length_append, List.length_singleton]
  rw [if_neg (by omega)]

/-- A byte that completes a block is compressed with the tail. -/
theorem absorbByte_of_full {st : Stream} (h : st.tail.length = 63) (b : Byte) :
    absorbByte st b = ⟨compress st.h (st.tail ++ [b]), [], st.dlen + 8⟩ := by
  simp [absorbByte, h]

/-- Bytes that do not complete a block join the tail. -/
theorem absorb_of_short (st : Stream) (B : Bytes) (h : st.tail.length + B.length < 64) :
    absorb st B = ⟨st.h, st.tail ++ B, st.dlen + 8 * BitVec.ofNat 64 B.length⟩ := by
  induction B generalizing st with
  | nil => simp
  | cons b B ih =>
    simp only [List.length_cons] at h
    rw [absorb_cons, absorbByte_of_short (by omega), ih _ (by simp; omega)]
    simp only [List.append_assoc, List.singleton_append, List.length_cons, Stream.mk.injEq,
      true_and]
    apply BitVec.eq_of_toNat_eq
    simp
    omega

/-- Bytes that complete a block exactly are compressed with the tail. -/
theorem absorb_of_block (st : Stream) (B : Bytes) (hlt : st.tail.length < 64)
    (h : st.tail.length + B.length = 64) :
    absorb st B = ⟨compress st.h (st.tail ++ B), [], st.dlen + 8 * BitVec.ofNat 64 B.length⟩ := by
  obtain ⟨A, b, rfl⟩ := List.eq_nil_or_concat B |>.resolve_left (by rintro rfl; simp at h; omega)
  simp only [List.concat_eq_append, List.length_append, List.length_singleton] at h ⊢
  rw [absorb_append, absorb_of_short st A (by omega), absorb_cons, absorb_nil,
    absorbByte_of_full (by simp; omega)]
  simp only [List.append_assoc, Stream.mk.injEq, true_and]
  apply BitVec.eq_of_toNat_eq
  simp
  omega

/-! The tail follows the count (R27). -/

theorem wf_initial : Stream.initial.wf := by decide

theorem wf_absorbByte {st : Stream} (h : st.wf) (b : Byte) : (absorbByte st b).wf := by
  obtain ⟨h1, h2⟩ := h
  have hd := st.dlen.isLt
  have hadd : (st.dlen + 8).toNat = (st.dlen.toNat + 8) % 2 ^ 64 := by simp
  by_cases hf : st.tail.length = 63
  · rw [absorbByte_of_full hf]
    simp only [Stream.wf, hadd, List.length_nil]
    omega
  · rw [absorbByte_of_short (by omega)]
    simp only [Stream.wf, hadd, List.length_append, List.length_singleton]
    omega

theorem wf_absorb {st : Stream} (h : st.wf) (B : Bytes) : (absorb st B).wf := by
  induction B generalizing st with
  | nil => exact h
  | cons b B ih => exact ih (wf_absorbByte h b)

/-- The tail of a stream that follows its count is shorter than a block (R25). -/
theorem length_tail_lt {st : Stream} (h : st.wf) : st.tail.length < 64 := by
  have := h.1
  omega

/-! Padding and output (R126, R127). -/

theorem length_pad {tail : Bytes} (h : tail.length < 64) (dlen : DWord) :
    (pad tail dlen).length = if tail.length ≤ 55 then 64 else 128 := by
  simp only [pad, padZeros, List.length_append, List.length_singleton, List.length_replicate,
    length_le64]
  split <;> omega

@[simp] theorem length_serialise (h : Chain) : (serialise h).length = 20 := rfl

@[simp] theorem length_finish (st : Stream) : (finish st).length = 20 := rfl

@[simp] theorem length_digest160 (B : Bytes) : (digest160 B).length = 20 := rfl

/-- A tail of at most 55 bytes is finished with one compression (R127). -/
theorem finalChain_of_short {st : Stream} (h : st.tail.length ≤ 55) :
    finalChain st = compress st.h (pad st.tail st.dlen) := by
  have hl := length_pad (tail := st.tail) (by omega) st.dlen
  rw [if_pos h] at hl
  simp [finalChain, hl, List.take_of_length_le]

/-- A longer tail is finished with two (R127). -/
theorem finalChain_of_long {st : Stream} (h : 55 < st.tail.length) (hlt : st.tail.length < 64) :
    finalChain st = compress (compress st.h ((pad st.tail st.dlen).take 64))
      ((pad st.tail st.dlen).drop 64) := by
  have hl := length_pad hlt st.dlen
  rw [if_neg (by omega)] at hl
  simp [finalChain, hl, List.take_of_length_le]

end Sys2Proof.Machine
end

