-- ==== Sys2Proof/Laws/Parameters.lean ====
section
/-! SUPPORT. All that may be known of the open parameters (spec 00_scope.md R7, R8, 48_host_context.md
R203): the bounds of BUFCAP, that H256 answers exactly 32 bytes, and that the curve order is a
nonzero 256-bit constant. -/

namespace Sys2Proof.Config

/-- `128 <= BUFCAP` (R8). -/
theorem le_bufcap : 128 ≤ bufcap := Nat.le_add_left ..

/-- `BUFCAP <= 4096` (R8). -/
theorem bufcap_le : bufcap ≤ 4096 := by
  have := bufcapExtra.isLt
  unfold bufcap
  omega

/-- `H256` answers a string of exactly 32 bytes (R7). -/
@[simp] theorem length_h256 (B : Bytes) : (h256 B).length = 32 := by simp [h256]

/-- The curve order is not 0 (R203). -/
theorem curveOrder_pos : 0 < curveOrder := Nat.succ_pos _

/-- The curve order is a 256-bit constant (R203). -/
theorem curveOrder_lt : curveOrder < 2 ^ 256 := by
  have := Nat.mod_lt curveOrderSeed.toNat (show 0 < 2 ^ 256 - 1 by decide)
  unfold curveOrder
  omega

end Sys2Proof.Config
end

