-- ==== Sys2Proof/Laws/State.lean ====
section
/-! SUPPORT. The small lemmas of the state's updates: one per field per update, true by `rfl`, so that
no proof unfolds a record update. -/

namespace Sys2Proof.Machine

variable (s : State)

/-! `OUT <- B` changes OBUF and OLEN only. -/

@[simp] theorem State.setOutput_stream (B : Bytes) : (s.setOutput B).stream = s.stream := rfl
@[simp] theorem State.setOutput_ibuf (B : Bytes) : (s.setOutput B).ibuf = s.ibuf := rfl
@[simp] theorem State.setOutput_obuf (B : Bytes) : (s.setOutput B).obuf = B := rfl
@[simp] theorem State.setOutput_errCode (B : Bytes) : (s.setOutput B).errCode = s.errCode := rfl
@[simp] theorem State.setOutput_errf (B : Bytes) : (s.setOutput B).errf = s.errf := rfl
@[simp] theorem State.setOutput_host (B : Bytes) : (s.setOutput B).host = s.host := rfl

/-! Writing the digest stream changes nothing else. -/

@[simp] theorem State.setStream_stream (st : Stream) : (s.setStream st).stream = st := rfl
@[simp] theorem State.setStream_ibuf (st : Stream) : (s.setStream st).ibuf = s.ibuf := rfl
@[simp] theorem State.setStream_obuf (st : Stream) : (s.setStream st).obuf = s.obuf := rfl
@[simp] theorem State.setStream_errCode (st : Stream) : (s.setStream st).errCode = s.errCode := rfl
@[simp] theorem State.setStream_errf (st : Stream) : (s.setStream st).errf = s.errf := rfl
@[simp] theorem State.setStream_host (st : Stream) : (s.setStream st).host = s.host := rfl

/-! Writing the input string changes nothing else. -/

@[simp] theorem State.setInput_stream (B : Bytes) : (s.setInput B).stream = s.stream := rfl
@[simp] theorem State.setInput_ibuf (B : Bytes) : (s.setInput B).ibuf = B := rfl
@[simp] theorem State.setInput_obuf (B : Bytes) : (s.setInput B).obuf = s.obuf := rfl
@[simp] theorem State.setInput_errCode (B : Bytes) : (s.setInput B).errCode = s.errCode := rfl
@[simp] theorem State.setInput_errf (B : Bytes) : (s.setInput B).errf = s.errf := rfl
@[simp] theorem State.setInput_host (B : Bytes) : (s.setInput B).host = s.host := rfl

/-! A success writes ERR.CODE only (R229). -/

@[simp] theorem State.succeed_stream : (s.succeed).stream = s.stream := rfl
@[simp] theorem State.succeed_ibuf : (s.succeed).ibuf = s.ibuf := rfl
@[simp] theorem State.succeed_obuf : (s.succeed).obuf = s.obuf := rfl
@[simp] theorem State.succeed_errCode : (s.succeed).errCode = 0 := rfl
@[simp] theorem State.succeed_errf : (s.succeed).errf = s.errf := rfl
@[simp] theorem State.succeed_host : (s.succeed).host = s.host := rfl

/-! A failure writes ERR.CODE and STATUS.ERRF only (R230). -/

@[simp] theorem State.raiseFail_stream (k : ErrKind) : (s.raiseFail k).stream = s.stream := rfl
@[simp] theorem State.raiseFail_ibuf (k : ErrKind) : (s.raiseFail k).ibuf = s.ibuf := rfl
@[simp] theorem State.raiseFail_obuf (k : ErrKind) : (s.raiseFail k).obuf = s.obuf := rfl
@[simp] theorem State.raiseFail_errCode (k : ErrKind) : (s.raiseFail k).errCode = k.code := rfl
@[simp] theorem State.raiseFail_errf (k : ErrKind) : (s.raiseFail k).errf = true := rfl
@[simp] theorem State.raiseFail_host (k : ErrKind) : (s.raiseFail k).host = s.host := rfl

/-! CLRERR's effect (R192). -/

@[simp] theorem State.clearError_stream : (s.clearError).stream = s.stream := rfl
@[simp] theorem State.clearError_ibuf : (s.clearError).ibuf = s.ibuf := rfl
@[simp] theorem State.clearError_obuf : (s.clearError).obuf = s.obuf := rfl
@[simp] theorem State.clearError_errCode : (s.clearError).errCode = 0 := rfl
@[simp] theorem State.clearError_errf : (s.clearError).errf = false := rfl
@[simp] theorem State.clearError_host : (s.clearError).host = s.host := rfl

/-! A delivered output: OBUF, OLEN and ERR.CODE (R15, R229). -/

@[simp] theorem State.deliver_stream (B : Bytes) : (s.deliver B).stream = s.stream := rfl
@[simp] theorem State.deliver_ibuf (B : Bytes) : (s.deliver B).ibuf = s.ibuf := rfl
@[simp] theorem State.deliver_obuf (B : Bytes) : (s.deliver B).obuf = B := rfl
@[simp] theorem State.deliver_errCode (B : Bytes) : (s.deliver B).errCode = 0 := rfl
@[simp] theorem State.deliver_errf (B : Bytes) : (s.deliver B).errf = s.errf := rfl
@[simp] theorem State.deliver_host (B : Bytes) : (s.deliver B).host = s.host := rfl

/-! A pushed byte: IBUF and ILEN only (R36). -/

@[simp] theorem State.push_stream (v : Word) : (s.push v).stream = s.stream := rfl
@[simp] theorem State.push_ibuf (v : Word) : (s.push v).ibuf = s.ibuf ++ [v.extractLsb' 0 8] := rfl
@[simp] theorem State.push_obuf (v : Word) : (s.push v).obuf = s.obuf := rfl
@[simp] theorem State.push_errCode (v : Word) : (s.push v).errCode = s.errCode := rfl
@[simp] theorem State.push_errf (v : Word) : (s.push v).errf = s.errf := rfl
@[simp] theorem State.push_host (v : Word) : (s.push v).host = s.host := rfl

/-! Answering the host leaves the block as it is. -/

@[simp] theorem State.respond_stream (r : Response) : (s.respond r).stream = s.stream := rfl
@[simp] theorem State.respond_ibuf (r : Response) : (s.respond r).ibuf = s.ibuf := rfl
@[simp] theorem State.respond_obuf (r : Response) : (s.respond r).obuf = s.obuf := rfl
@[simp] theorem State.respond_errCode (r : Response) : (s.respond r).errCode = s.errCode := rfl
@[simp] theorem State.respond_errf (r : Response) : (s.respond r).errf = s.errf := rfl
@[simp] theorem State.respond_host (r : Response) : (s.respond r).host = { s.host with response := some r } := rfl

/-! The host's list of moves is not the block's. -/

@[simp] theorem State.setPending_stream (moves : List HostMove) : (s.setPending moves).stream = s.stream := rfl
@[simp] theorem State.setPending_ibuf (moves : List HostMove) : (s.setPending moves).ibuf = s.ibuf := rfl
@[simp] theorem State.setPending_obuf (moves : List HostMove) : (s.setPending moves).obuf = s.obuf := rfl
@[simp] theorem State.setPending_errCode (moves : List HostMove) : (s.setPending moves).errCode = s.errCode := rfl
@[simp] theorem State.setPending_errf (moves : List HostMove) : (s.setPending moves).errf = s.errf := rfl
@[simp] theorem State.setPending_host (moves : List HostMove) : (s.setPending moves).host = { s.host with pending := moves } := rfl

/-! The views of the buffers. -/

@[simp] theorem State.input_eq : s.input = s.ibuf := rfl
@[simp] theorem State.output_eq : s.output = s.obuf := rfl
@[simp] theorem State.ilen_eq : s.ilen = s.ibuf.length := rfl
@[simp] theorem State.olen_eq : s.olen = s.obuf.length := rfl

/-! The reset state (R45). -/

@[simp] theorem State.reset_stream : State.reset.stream = Stream.initial := rfl
@[simp] theorem State.reset_ibuf : State.reset.ibuf = [] := rfl
@[simp] theorem State.reset_obuf : State.reset.obuf = [] := rfl
@[simp] theorem State.reset_errCode : State.reset.errCode = 0 := rfl
@[simp] theorem State.reset_errf : State.reset.errf = false := rfl

/-! Updates that cancel or commute. -/

@[simp] theorem State.setPending_setPending (m n : List HostMove) :
    (s.setPending m).setPending n = s.setPending n := rfl
@[simp] theorem State.respond_respond (q r : Response) :
    (s.respond q).respond r = s.respond r := rfl
@[simp] theorem State.setPending_pending (m : List HostMove) :
    (s.setPending m).host.pending = m := rfl

/-- Two states are equal when their blocks and their host sides are. -/
theorem State.eq_of_sameBlock {s t : State} (h : s.SameBlock t) (hh : t.host = s.host) : t = s := by
  obtain ⟨h1, h2, h3, h4, h5⟩ := h
  cases s; cases t; simp_all

end Sys2Proof.Machine
end

