-- ==== Sys2Proof/Laws/Exec.lean ====
section
/-! SUPPORT. What the meanings answer, one lemma per branch of a meaning, and, said once for all
seventeen commands, everything executing a command can do: it fails and records the code, or it
succeeds with code 0, and it never looks at the host side, at ERR or (but for CLRERR) at STATUS. -/

namespace Sys2Proof.Machine

variable {s : State}

/-! The branches of each meaning. -/

theorem execB58Enc_of_fits (h : (b58Enc s.ibuf).length ≤ Config.bufcap) :
    execB58Enc s = .next (s.deliver (b58Enc s.ibuf)) := by simp [execB58Enc, Nat.not_lt.mpr h]

theorem execB58Enc_of_exceeds (h : Config.bufcap < (b58Enc s.ibuf).length) :
    execB58Enc s = .next (s.raiseFail .capacityExceeded) := by simp [execB58Enc, h]

theorem execB58Dec_of_some {B : Bytes} (h : b58Dec s.ibuf = some B) :
    execB58Dec s = .next (s.deliver B) := by simp [execB58Dec, h]

theorem execB58Dec_of_none (h : b58Dec s.ibuf = none) :
    execB58Dec s = .next (s.raiseFail .invalidSymbol) := by simp [execB58Dec, h]

theorem execChkAttach_of_fits (h : s.ibuf.length + 4 ≤ Config.bufcap) :
    execChkAttach s = .next (s.deliver (attach s.ibuf)) := by simp [execChkAttach, Nat.not_lt.mpr h]

theorem execChkAttach_of_exceeds (h : Config.bufcap < s.ibuf.length + 4) :
    execChkAttach s = .next (s.raiseFail .capacityExceeded) := by simp [execChkAttach, h]

theorem execChkVerify_of_short (h : s.ibuf.length < 4) :
    execChkVerify s = .next (s.raiseFail .invalidLength) := by simp [execChkVerify, h]

theorem execChkVerify_of_mismatch (h : 4 ≤ s.ibuf.length)
    (hc : check4 (s.ibuf.take (s.ibuf.length - 4)) ≠ s.ibuf.drop (s.ibuf.length - 4)) :
    execChkVerify s = .next (s.raiseFail .checksumMismatch) := by
  simp [execChkVerify, Nat.not_lt.mpr h, hc]

theorem execChkVerify_of_match (h : 4 ≤ s.ibuf.length)
    (hc : check4 (s.ibuf.take (s.ibuf.length - 4)) = s.ibuf.drop (s.ibuf.length - 4)) :
    execChkVerify s = .next (s.deliver (s.ibuf.take (s.ibuf.length - 4))) := by
  simp [execChkVerify, Nat.not_lt.mpr h, hc]

theorem execKfFormat_of_length (h : s.ibuf.length = 64) :
    execKfFormat s = .next (s.deliver (formatKey s.ibuf)) := by simp [execKfFormat, h]

theorem execKfFormat_of_wrong (h : s.ibuf.length ≠ 64) :
    execKfFormat s = .next (s.raiseFail .invalidLength) := by simp [execKfFormat, h]

theorem execKfCompress_of_format (h : s.ibuf.length = 65) (hm : s.ibuf.head? = some 0x04#8) :
    execKfCompress s = .next (s.deliver (compressKey s.ibuf)) := by simp [execKfCompress, h, hm]

theorem execKfCompress_of_wrong (h : s.ibuf.length ≠ 65 ∨ s.ibuf.head? ≠ some 0x04#8) :
    execKfCompress s = .next (s.raiseFail .invalidFormat) := by
  rw [execKfCompress, if_pos (by simpa using h)]

theorem execDrvAddr_of_length (arg : Byte) (h : s.ibuf.length = 33) :
    execDrvAddr arg s =
      .next ((s.setStream Stream.initial).deliver (deriveAddress arg s.ibuf)) := by
  simp [execDrvAddr, h]

theorem execDrvAddr_of_wrong (arg : Byte) (h : s.ibuf.length ≠ 33) :
    execDrvAddr arg s = .next (s.raiseFail .invalidLength) := by simp [execDrvAddr, h]

theorem execDrvWif_of_length (arg : Byte) (h : s.ibuf.length = 32) :
    execDrvWif arg s = .next (s.deliver (deriveWif arg s.ibuf)) := by simp [execDrvWif, h]

theorem execDrvWif_of_wrong (arg : Byte) (h : s.ibuf.length ≠ 32) :
    execDrvWif arg s = .next (s.raiseFail .invalidLength) := by simp [execDrvWif, h]

theorem execXfer_of_fits (h : s.ibuf.length + s.obuf.length ≤ Config.bufcap) :
    execXfer s = .next (s.setInput (s.ibuf ++ s.obuf)).succeed := by
  simp [execXfer, Nat.not_lt.mpr h]

theorem execXfer_of_exceeds (h : Config.bufcap < s.ibuf.length + s.obuf.length) :
    execXfer s = .next (s.raiseFail .capacityExceeded) := by simp [execXfer, h]

/-! Lengths of what the meanings deliver. -/

@[simp] theorem length_check4 (B : Bytes) : (check4 B).length = 4 := by simp [check4]

@[simp] theorem length_attach (B : Bytes) : (attach B).length = B.length + 4 := by simp [attach]

@[simp] theorem length_formatKey (B : Bytes) : (formatKey B).length = B.length + 1 := rfl

theorem length_compressKey {B : Bytes} (h : B.length = 65) : (compressKey B).length = 33 := by
  simp [compressKey, h]

@[simp] theorem length_addressPayload (arg : Byte) (key : Bytes) :
    (addressPayload arg key).length = 21 := by simp [addressPayload]

theorem length_deriveAddress_le (arg : Byte) (key : Bytes) : (deriveAddress arg key).length ≤ 50 := by
  have := length_b58Enc_le (attach (addressPayload arg key))
  simpa [deriveAddress] using this

theorem length_deriveWif_le (arg : Byte) {key : Bytes} (h : key.length = 32) :
    (deriveWif arg key).length ≤ 74 := by
  have := length_b58Enc_le (attach (arg :: key))
  simpa [deriveWif, h] using this

/-! The codes (R220). -/

theorem ErrKind.code_ne_zero (k : ErrKind) : k.code ≠ 0 := by cases k <;> decide

theorem ErrKind.code_le (k : ErrKind) : k.code.toNat ≤ 7 := by cases k <;> decide

/-! Everything a command can do. -/

/-- What a successful command has written: of the block only what R86 lets it write, with code 0 and
the flag as it was (R229), the buffers within their capacity and the tail following the count. -/
structure Succeeded (i : Instr) (s t : State) : Prop where
  code : t.errCode = 0
  flag : i ≠ .clrerr → t.errf = s.errf
  input : writesIn i = false → t.ibuf = s.ibuf
  output : writesOut i = false → t.obuf = s.obuf
  stream : writesStream i = false → t.stream = s.stream
  host : t.host = s.host
  memory : Memory.wf s → Memory.wf t
  streamWf : s.stream.wf → t.stream.wf

/-- A command that writes no stream and delivers an output that fits has succeeded. -/
theorem succeeded_deliver {i : Instr} {B : Bytes} (ho : writesOut i = true)
    (hB : Memory.wf s → B.length ≤ Config.bufcap) : Succeeded i s (s.deliver B) where
  code := rfl
  flag _ := rfl
  input _ := rfl
  output h := by simp [ho] at h
  stream _ := rfl
  host := rfl
  memory h := ⟨h.1, hB h⟩
  streamWf h := h

/-- Every command either fails, with the one effect of R230, or succeeds. -/
theorem exec_cases (i : Instr) (s : State) :
    (∃ k, exec i s = .next (s.raiseFail k)) ∨ ∃ t, exec i s = .next t ∧ Succeeded i s t := by
  have h128 := Config.le_bufcap
  cases i with
  | d160Init =>
    exact .inr ⟨_, rfl, rfl, fun _ => rfl, fun _ => rfl, fun _ => rfl, by simp [writesStream], rfl,
      id, fun _ => wf_initial⟩
  | d160Update =>
    exact .inr ⟨_, rfl, rfl, fun _ => rfl, fun _ => rfl, fun _ => rfl, by simp [writesStream], rfl,
      id, fun h => wf_absorb h _⟩
  | d160Final =>
    exact .inr ⟨_, rfl, rfl, fun _ => rfl, fun _ => rfl, by simp [writesOut], by simp [writesStream],
      rfl, fun h => ⟨h.1, by simp; omega⟩, fun _ => wf_initial⟩
  | d160Digest =>
    exact .inr ⟨_, rfl, rfl, fun _ => rfl, fun _ => rfl, by simp [writesOut], by simp [writesStream],
      rfl, fun h => ⟨h.1, by simp; omega⟩, fun _ => wf_initial⟩
  | b58Enc =>
    by_cases h : (b58Enc s.ibuf).length ≤ Config.bufcap
    · exact .inr ⟨_, execB58Enc_of_fits h, succeeded_deliver rfl fun _ => h⟩
    · exact .inl ⟨_, execB58Enc_of_exceeds (by omega)⟩
  | b58Dec =>
    cases h : b58Dec s.ibuf with
    | none => exact .inl ⟨_, execB58Dec_of_none h⟩
    | some B =>
      exact .inr ⟨_, execB58Dec_of_some h,
        succeeded_deliver rfl fun hm => (length_le_of_b58Dec h).trans hm.1⟩
  | chkAttach =>
    by_cases h : s.ibuf.length + 4 ≤ Config.bufcap
    · exact .inr ⟨_, execChkAttach_of_fits h, succeeded_deliver rfl fun _ => by simpa⟩
    · exact .inl ⟨_, execChkAttach_of_exceeds (by omega)⟩
  | chkVerify =>
    by_cases h : s.ibuf.length < 4
    · exact .inl ⟨_, execChkVerify_of_short h⟩
    by_cases hc : check4 (s.ibuf.take (s.ibuf.length - 4)) = s.ibuf.drop (s.ibuf.length - 4)
    · refine .inr ⟨_, execChkVerify_of_match (by omega) hc, succeeded_deliver rfl ?_⟩
      intro hm
      have := hm.1
      simp
      omega
    · exact .inl ⟨_, execChkVerify_of_mismatch (by omega) hc⟩
  | kfFormat =>
    by_cases h : s.ibuf.length = 64
    · exact .inr ⟨_, execKfFormat_of_length h,
        succeeded_deliver rfl fun _ => by simp; omega⟩
    · exact .inl ⟨_, execKfFormat_of_wrong h⟩
  | kfCompress =>
    by_cases h : s.ibuf.length = 65 ∧ s.ibuf.head? = some 0x04#8
    · exact .inr ⟨_, execKfCompress_of_format h.1 h.2,
        succeeded_deliver rfl fun _ => by rw [length_compressKey h.1]; omega⟩
    · exact .inl ⟨_, execKfCompress_of_wrong (by tauto)⟩
  | drvAddr arg =>
    by_cases h : s.ibuf.length = 33
    · refine .inr ⟨_, execDrvAddr_of_length arg h, rfl, fun _ => rfl, fun _ => rfl,
        by simp [writesOut], by simp [writesStream], rfl, fun hm => ⟨hm.1, ?_⟩, fun _ => wf_initial⟩
      exact (length_deriveAddress_le arg s.ibuf).trans (by omega)
    · exact .inl ⟨_, execDrvAddr_of_wrong arg h⟩
  | drvWif arg =>
    by_cases h : s.ibuf.length = 32
    · exact .inr ⟨_, execDrvWif_of_length arg h, succeeded_deliver rfl fun _ =>
        (length_deriveWif_le arg h).trans (by omega)⟩
    · exact .inl ⟨_, execDrvWif_of_wrong arg h⟩
  | impWif => exact .inl ⟨_, rfl⟩
  | xfer =>
    by_cases h : s.ibuf.length + s.obuf.length ≤ Config.bufcap
    · exact .inr ⟨_, execXfer_of_fits h, rfl, fun _ => rfl, by simp [writesIn], fun _ => rfl,
        fun _ => rfl, rfl, fun hm => ⟨by simpa using h, hm.2⟩, id⟩
    · exact .inl ⟨_, execXfer_of_exceeds (by omega)⟩
  | clrerr =>
    exact .inr ⟨_, rfl, rfl, by simp, fun _ => rfl, fun _ => rfl, fun _ => rfl, rfl, id, id⟩
  | iclr =>
    exact .inr ⟨_, rfl, rfl, fun _ => rfl, by simp [writesIn], fun _ => rfl, fun _ => rfl, rfl,
      fun hm => ⟨by simp, hm.2⟩, id⟩
  | extH256 =>
    exact .inr ⟨_, rfl, succeeded_deliver rfl fun _ => by simp; omega⟩

/-- No command looks at the host side: exchanging it commutes with the command. -/
theorem exec_withHost (i : Instr) (s : State) (g : HostSide) {t : State} (h : exec i s = .next t) :
    exec i { s with host := g } = .next { t with host := g } := by
  cases i with
  | d160Init | d160Update | d160Final | d160Digest | impWif | clrerr | iclr | extH256 =>
    obtain rfl := Host.Outcome.next.inj h
    rfl
  | b58Dec =>
    simp only [exec, execB58Dec, State.input] at h ⊢
    cases hb : b58Dec s.ibuf <;> rw [hb] at h <;> obtain rfl := Host.Outcome.next.inj h <;> rfl
  | b58Enc | chkAttach | chkVerify | kfFormat | kfCompress | drvAddr _ | drvWif _ | xfer =>
    dsimp only [exec, execB58Enc, execChkAttach, execChkVerify, execKfFormat, execKfCompress,
      execDrvAddr, execDrvWif, execXfer, State.input, State.output, State.ilen, State.olen]
      at h ⊢
    split_ifs at h ⊢ <;> obtain rfl := Host.Outcome.next.inj h <;> rfl

end Sys2Proof.Machine
end

