-- ==== Sys2Proof/Laws/Bus.lean ====
section
/-! SUPPORT. Laws of the host's moves and of runs of them (spec 20_memory.md R50 to R55): everything one
move can do, said once; that a move leaves the moves after it alone; and how a run of a list of
moves is the run of its parts. -/

namespace Sys2Proof.Machine

variable {s t : State}

/-! The address map (R52). -/

theorem regAt_window {i : Nat} (h : i < 4096) : regAt (0x4000 + 4 * i) = some (.obufWord i) := by
  have h1 : 0x4000 ≤ 0x4000 + 4 * i ∧ 0x4000 + 4 * i < 0x8000 ∧ (0x4000 + 4 * i) % 4 = 0 := by omega
  have h2 : (0x4000 + 4 * i - 0x4000) / 4 = i := by omega
  unfold regAt
  split <;> first | omega | rw [if_pos h1, h2]

theorem accessFault_word {off : Nat} (h4 : off % 4 = 0) (hlt : off < 0x8000) :
    accessFault 4 off = none := by simp [accessFault, h4, Nat.not_le.mpr hlt]

/-- A read of window word `i` answers byte `i` of the output, or is a bus error (R39). -/
theorem memRead_window (s : State) {i : Nat} (h : i < 4096) :
    memRead s 4 (0x4000 + 4 * i) =
      match s.obuf[i]? with
      | some b => .ok (b.zeroExtend 32)
      | none => .error .beyondOlen := by
  rw [memRead, accessFault_word (by omega) (by omega), regAt_window h]
  rfl

theorem memWritePort_cmd (s : State) : memWritePort s 4 0x0000 = .ok .cmd := rfl

theorem memWritePort_ipush_of_room (h : s.ibuf.length < Config.bufcap) :
    memWritePort s 4 0x0018 = .ok .ipush := by
  have : memWritePort s 4 0x0018 = writePort s .ipush := rfl
  simp [this, writePort, h]

theorem memWritePort_ipush_of_full (h : Config.bufcap ≤ s.ibuf.length) :
    memWritePort s 4 0x0018 = .error .inputFull := by
  have : memWritePort s 4 0x0018 = writePort s .ipush := rfl
  simp [this, writePort, h]

/-- Only CMD and IPUSH, written as words, are writable (R53 f, R55). -/
theorem memWritePort_ok {width off : Nat} {p : WritePort} (h : memWritePort s width off = .ok p) :
    width = 4 ∧ ((p = .cmd ∧ off = 0x0000) ∨
      (p = .ipush ∧ off = 0x0018 ∧ s.ibuf.length < Config.bufcap)) := by
  unfold memWritePort at h
  split at h
  · cases h
  · rename_i ha
    have hw : width = 4 := by
      by_contra hw
      simp [accessFault, hw] at ha
    refine ⟨hw, ?_⟩
    split at h
    · cases h
    · rename_i r hr
      have hcmd : r = .cmd → off = 0x0000 := by
        rintro rfl
        unfold regAt at hr
        split at hr <;> simp_all
      have hipush : r = .ipush → off = 0x0018 := by
        rintro rfl
        unfold regAt at hr
        split at hr <;> simp_all
      cases r with
      | cmd =>
        obtain rfl := Except.ok.inj h
        exact .inl ⟨rfl, hcmd rfl⟩
      | ipush =>
        simp only [writePort] at h
        split at h
        · rename_i hlt
          obtain rfl := Except.ok.inj h
          exact .inr ⟨rfl, hipush rfl, hlt⟩
        · cases h
      | status | err | ilen | olen | cap | h | dlenLo | dlenHi | obufWord => cases h

/-! A command word. -/

/-- A command word either fails with one effect, or decodes and succeeds (R229, R230). -/
theorem runCommand_cases (v : Word) (s : State) :
    (∃ k, runCommand v s = .next (s.raiseFail k)) ∨
      ∃ i t, decode v = .ok i ∧ runCommand v s = .next t ∧ Succeeded i s t := by
  unfold runCommand
  cases hd : decode v with
  | error e => exact .inl ⟨_, rfl⟩
  | ok i =>
    rcases exec_cases i s with ⟨k, hk⟩ | ⟨t, ht, hs⟩
    · exact .inl ⟨k, hk⟩
    · exact .inr ⟨i, t, rfl, ht, hs⟩

/-- A command leaves the host side alone. -/
theorem runCommand_host {v : Word} (h : runCommand v s = .next t) : t.host = s.host := by
  rcases runCommand_cases v s with ⟨k, hk⟩ | ⟨i, u, -, hu, hs⟩
  · rw [hk] at h
    obtain rfl := Host.Outcome.next.inj h
    rfl
  · rw [hu] at h
    obtain rfl := Host.Outcome.next.inj h
    exact hs.host

/-! One move. -/

/-- Everything one move of the host can do. -/
theorem hostMove_cases (m : HostMove) (s : State) :
    (∃ width off v, m = .read width off ∧ memRead s width off = .ok v ∧
      hostMove m s = .next (s.respond (.value v))) ∨
    (∃ c, hostMove m s = busError c s) ∨
    (∃ v, m = .write 4 0x0000 v ∧ hostMove m s = runCommand v (s.respond .done)) ∨
    (∃ v, m = .write 4 0x0018 v ∧ s.ibuf.length < Config.bufcap ∧
      hostMove m s = .next ((s.push v).respond .done)) ∨
    (m = .reset ∧
      hostMove m s = .next { State.reset with host := { s.host with response := none } }) := by
  cases m with
  | read width off =>
    simp only [hostMove, hostRead]
    cases h : memRead s width off with
    | ok v => exact .inl ⟨width, off, v, rfl, h, rfl⟩
    | error c => exact .inr (.inl ⟨c, rfl⟩)
  | write width off v =>
    simp only [hostMove, hostWrite]
    cases h : memWritePort s width off with
    | error c => exact .inr (.inl ⟨c, rfl⟩)
    | ok p =>
      obtain ⟨rfl, ⟨rfl, rfl⟩ | ⟨rfl, rfl, hlt⟩⟩ := memWritePort_ok h
      · exact .inr (.inr (.inl ⟨v, rfl, rfl⟩))
      · exact .inr (.inr (.inr (.inl ⟨v, rfl, hlt, rfl⟩)))
  | reset => exact .inr (.inr (.inr (.inr ⟨rfl, rfl⟩)))

theorem busError_of_goesOn (h : s.host.onBusError = .goesOn) (c : BusCause) :
    busError c s = .next (s.respond .busError) := by simp [busError, h]

theorem busError_of_stops (h : s.host.onBusError = .stops) (c : BusCause) :
    busError c s = .fault (.busError c) := by simp [busError, h]

/-- A bus error that goes on answers the error response and changes nothing else (R235). -/
theorem busError_next {c : BusCause} (h : busError c s = .next t) : t = s.respond .busError := by
  cases hp : s.host.onBusError with
  | goesOn =>
    rw [busError_of_goesOn hp] at h
    exact (Host.Outcome.next.inj h).symm
  | stops =>
    rw [busError_of_stops hp] at h
    cases h

/-- A move leaves the moves after it, and the host's policy, alone. -/
theorem hostMove_host {m : HostMove} (h : hostMove m s = .next t) :
    t.host.pending = s.host.pending ∧ t.host.onBusError = s.host.onBusError := by
  rcases hostMove_cases m s with ⟨_, _, _, -, -, hk⟩ | ⟨c, hk⟩ | ⟨v, -, hk⟩ | ⟨v, -, -, hk⟩ | ⟨-, hk⟩ <;>
    rw [hk] at h
  · obtain rfl := Host.Outcome.next.inj h
    exact ⟨rfl, rfl⟩
  · rw [busError_next h]
    exact ⟨rfl, rfl⟩
  · rw [runCommand_host h]
    exact ⟨rfl, rfl⟩
  · obtain rfl := Host.Outcome.next.inj h
    exact ⟨rfl, rfl⟩
  · obtain rfl := Host.Outcome.next.inj h
    exact ⟨rfl, rfl⟩

/-! One step. -/

theorem step_of_pending {m : HostMove} {rest : List HostMove} (h : s.host.pending = m :: rest) :
    step s = hostMove m (s.setPending rest) := by simp [step, h]

theorem step_of_idle (h : s.host.pending = []) : step s = .next s := by simp [step, h]

/-! Runs. -/

@[simp] theorem runMoves_nil (s : State) : runMoves [] s = .next (s.setPending []) := rfl

/-- The state with no moves left to issue. -/
theorem setPending_self {moves : List HostMove} (h : s.host.pending = moves) :
    s.setPending moves = s := by subst h; rfl

/-- A run of any machine is its first step and then the rest. -/
theorem run_succ_of_next {M : Host.Core} {k : Nat} {x y : M.State} (h : M.step x = .next y) :
    M.run (k + 1) x = M.run k y := by simp only [Host.Core.run, h]

/-- A run that reaches its end got past its first step. -/
theorem run_succ_next {M : Host.Core} {k : Nat} {x z : M.State} (h : M.run (k + 1) x = .next z) :
    ∃ y, M.step x = .next y ∧ M.run k y = .next z := by
  simp only [Host.Core.run] at h
  cases hx : M.step x with
  | next y => exact ⟨y, rfl, by rwa [hx] at h⟩
  | fault r => rw [hx] at h; cases h
  | refused r => rw [hx] at h; cases h

/-- A run is its first move and then the run of the rest. -/
theorem runMoves_cons {m : HostMove} {rest : List HostMove}
    (h : hostMove m (s.setPending rest) = .next t) : runMoves (m :: rest) s = runMoves rest t := by
  have hp : t.setPending rest = t := setPending_self (hostMove_host h).1
  unfold runMoves
  rw [hp]
  exact run_succ_of_next (M := Sys2Proof.core) (x := s.setPending (m :: rest)) h

/-- A run that reaches its end got past its first move. -/
theorem runMoves_cons_next {m : HostMove} {rest : List HostMove}
    (h : runMoves (m :: rest) s = .next t) :
    ∃ u, hostMove m (s.setPending rest) = .next u ∧ runMoves rest u = .next t := by
  obtain ⟨u, hu, hr⟩ := run_succ_next (M := Sys2Proof.core) h
  have hu : hostMove m (s.setPending rest) = .next u := hu
  exact ⟨u, hu, by rw [← runMoves_cons hu] ; exact h⟩

/-- What a move does to the block does not depend on the moves after it. -/
theorem hostMove_setPending {m : HostMove} (h : hostMove m s = .next t) (p : List HostMove) :
    hostMove m (s.setPending p) = .next (t.setPending p) := by
  have hb : ∀ c, busError c s = .next t → busError c (s.setPending p) = .next (t.setPending p) := by
    intro c hc
    cases hp : s.host.onBusError with
    | goesOn =>
      rw [busError_of_goesOn (by simpa using hp), busError_next hc]
      rfl
    | stops =>
      rw [busError_of_stops hp] at hc
      cases hc
  cases m with
  | read width off =>
    have hr : memRead (s.setPending p) width off = memRead s width off := rfl
    simp only [hostMove, hostRead, hr] at h ⊢
    cases hm : memRead s width off with
    | ok v =>
      rw [hm] at h
      obtain rfl := Host.Outcome.next.inj h
      rfl
    | error c =>
      rw [hm] at h
      exact hb c h
  | write width off v =>
    have hr : memWritePort (s.setPending p) width off = memWritePort s width off := rfl
    simp only [hostMove, hostWrite, hr] at h ⊢
    cases hm : memWritePort s width off with
    | error c =>
      rw [hm] at h
      exact hb c h
    | ok q =>
      rw [hm] at h
      cases q with
      | ipush =>
        obtain rfl := Host.Outcome.next.inj h
        rfl
      | cmd =>
        simp only [runCommand] at h ⊢
        cases hd : decode v with
        | error e =>
          rw [hd] at h
          obtain rfl := Host.Outcome.next.inj h
          rfl
        | ok i =>
          rw [hd] at h
          have hh : t.host = (s.respond .done).host :=
            runCommand_host (v := v) (s := s.respond .done) (by simp only [runCommand, hd]; exact h)
          have := exec_withHost i (s.respond .done)
            { (s.respond .done).host with pending := p } h
          rw [← hh] at this
          refine Eq.trans ?_ this
          rw [hh]
          rfl
  | reset =>
    obtain rfl := Host.Outcome.next.inj h
    rfl

/-- A run of two lists is the run of the second from where the first ends. -/
theorem runMoves_append {a b : List HostMove} (h : runMoves a s = .next t) :
    runMoves (a ++ b) s = runMoves b t := by
  induction a generalizing s with
  | nil =>
    obtain rfl := Host.Outcome.next.inj h
    rfl
  | cons m a ih =>
    obtain ⟨u, hu, hr⟩ := runMoves_cons_next h
    have hu' := hostMove_setPending hu (a ++ b)
    rw [State.setPending_setPending] at hu'
    rw [List.cons_append, runMoves_cons hu']
    exact ih hr

/-- A run does not look at the moves that were listed before. -/
@[simp] theorem runMoves_setPending (moves p : List HostMove) (s : State) :
    runMoves moves (s.setPending p) = runMoves moves s := rfl

/-- A command line (R88) runs the command: with `hd` from the encoder's round trip, a run that
begins with it goes on from where the command ends. -/
theorem runMoves_cmd {i : Instr} {rest : List HostMove} (hd : decode (encode i) = .ok i)
    (h : exec i s = .next t) : runMoves (cmd i :: rest) s = runMoves rest (t.respond .done) := by
  have hx : t.host = s.host := by
    have hr : runCommand (encode i) s = .next t := by simp only [runCommand, hd, h]
    exact runCommand_host hr
  have hc : hostMove (cmd i) (s.setPending rest) = .next ((t.respond .done).setPending rest) := by
    have := exec_withHost i s { s.host with pending := rest, response := some .done } h
    show runCommand (encode i) ((s.setPending rest).respond .done) = _
    simp only [runCommand, hd]
    refine this.trans ?_
    rw [← hx]
    rfl
  rw [runMoves_cons hc]
  rfl

/-- A pushed byte (R36, R88). -/
theorem runMoves_push {b : Byte} {rest : List HostMove} (h : s.ibuf.length < Config.bufcap) :
    runMoves (pushMove b :: rest) s =
      runMoves rest ((s.setInput (s.ibuf ++ [b])).respond .done) := by
  have hb : (b.zeroExtend 32).extractLsb' 0 8 = b := by
    apply BitVec.eq_of_toNat_eq
    simpa using b.isLt
  have hm : hostMove (pushMove b) (s.setPending rest) =
      .next (((s.setInput (s.ibuf ++ [b])).respond .done).setPending rest) := by
    simp only [hostMove, pushMove, hostWrite,
      memWritePort_ipush_of_room (s := s.setPending rest) h]
    rw [State.push, hb]
    rfl
  rw [runMoves_cons hm]
  rfl

/-- Pushed bytes join the input (R89, PUSHB). -/
theorem runMoves_pushb (B : Bytes) (h : s.ibuf.length + B.length ≤ Config.bufcap) :
    ∃ t, runMoves (pushb B) s = .next t ∧ t.ibuf = s.ibuf ++ B ∧ t.stream = s.stream ∧
      t.obuf = s.obuf ∧ t.errCode = s.errCode ∧ t.errf = s.errf ∧
      t.host.onBusError = s.host.onBusError := by
  induction B generalizing s with
  | nil => exact ⟨_, rfl, by simp⟩
  | cons b B ih =>
    simp only [List.length_cons] at h
    obtain ⟨t, ht, h1, h2, h3, h4, h5, h6⟩ :=
      ih (s := (s.setInput (s.ibuf ++ [b])).respond .done) (by simp; omega)
    refine ⟨t, ?_, by simpa using h1, h2, h3, h4, h5, h6⟩
    rw [pushb, List.map_cons, runMoves_push (by omega)]
    exact ht

end Sys2Proof.Machine
end

