-- ==== Sys2Proof/Laws/Host.lean ====
section
/-! SUPPORT. Laws of the host's plans (spec 48_host_context.md R200, R207): where a plan, its run and
its host's ledger stand after one move, and after each of the host's combinators. -/

namespace Sys2Proof.Machine

variable {α : Type} {s t : State} {d : Ledger}

/-! Leading on. -/

/-- A plan leads on to a later plan, ledger and state: its run is the later run, and it is dutiful when
the later plan is. -/
structure Leads (p : Plan α) (d : Ledger) (s : State) (p' : Plan α) (d' : Ledger) (s' : State) :
    Prop where
  run : runPlan p s = runPlan p' s'
  duty : ∀ noKeyLeft, dutiful noKeyLeft p' d' s' = true → dutiful noKeyLeft p d s = true

theorem Leads.refl (p : Plan α) (d : Ledger) (s : State) : Leads p d s p d s := ⟨rfl, fun _ => id⟩

theorem Leads.trans {p p' p'' : Plan α} {d' d'' : Ledger} {s' s'' : State}
    (h : Leads p d s p' d' s') (h' : Leads p' d' s' p'' d'' s'') : Leads p d s p'' d'' s'' :=
  ⟨h.run.trans h'.run, fun k hk => h.duty k (h'.duty k hk)⟩

/-- One move. -/
theorem Leads.issue {m : HostMove} {next : Option Response → Plan α}
    (ha : moveAllowed d s m = true) (h : step (s.setPending [m]) = .next t) :
    Leads (.issue m next) d s (next t.host.response) (d.note m t) t where
  run := by rw [runPlan, h]
  duty _ hk := by rw [dutiful, ha, h]; exact hk

/-! The steps of single moves. -/

/-- A command line, with `hd` from the encoder's round trip. -/
theorem step_cmd {i : Instr} (hd : decode (encode i) = .ok i) (h : exec i s = .next t) :
    step (s.setPending [cmd i]) = .next ((t.respond .done).setPending []) := by
  have hr : runMoves [cmd i] s = .next ((t.respond .done).setPending []) := by
    rw [runMoves_cmd hd h, runMoves_nil]
  obtain ⟨u, hu, hn⟩ := runMoves_cons_next hr
  rw [runMoves_nil, setPending_self (moves := []) (hostMove_host hu).1] at hn
  exact hu.trans hn

/-- A read of a register that answers a value. -/
theorem step_rd {r : Reg} {v : Word} (h : memRead s 4 (regOffset r) = .ok v) :
    step (s.setPending [rd r]) = .next ((s.respond (.value v)).setPending []) := by
  have h' : memRead (s.setPending []) 4 (regOffset r) = .ok v := h
  show hostRead 4 (regOffset r) (s.setPending []) = _
  simp only [hostRead, h']
  rfl

/-- A push with room. -/
theorem step_push {b : Byte} (h : s.ibuf.length < Config.bufcap) :
    step (s.setPending [pushMove b]) =
      .next (((s.setInput (s.ibuf ++ [b])).respond .done).setPending []) := by
  have hr : runMoves [pushMove b] s =
      .next (((s.setInput (s.ibuf ++ [b])).respond .done).setPending []) := by
    rw [runMoves_push h, runMoves_nil]
  obtain ⟨u, hu, hn⟩ := runMoves_cons_next hr
  rw [runMoves_nil, setPending_self (moves := []) (hostMove_host hu).1] at hn
  exact hu.trans hn

/-! What is noted. -/

theorem note_cmd {i : Instr} (hd : decode (encode i) = .ok i) (t : State) :
    d.note (cmd i) t = { d.ran i with key := (d.key.after i).settle t.ibuf.length } := by
  simp only [Ledger.note, cmd, commandMove, and_self, if_true, hd]
  rfl

theorem note_push (b : Byte) (t : State) :
    d.note (pushMove b) t = { d with key := d.key.settle t.ibuf.length } := by
  simp [Ledger.note, pushMove]

/-- A window word or a length says nothing of a command. -/
theorem note_rd_data {r : Reg} (h : 0x0008 < regOffset r) (t : State) : d.note (rd r) t = d := by
  have h1 : regOffset r ≠ 0x0008 := by omega
  have h2 : regOffset r ≠ 0x0004 := by omega
  simp only [Ledger.note, rd, if_true, if_neg h1, if_neg h2]
  split <;> rfl

/-! A read. -/

/-- A read that answers a value goes on with it. -/
theorem leads_rd {r : Reg} {v : Word} (next : Word → Procedure α)
    (ha : moveAllowed d s (rd r) = true) (h : memRead s 4 (regOffset r) = .ok v) :
    Leads (readThen r next) d s (next v)
      (d.note (rd r) ((s.respond (.value v)).setPending [])) ((s.respond (.value v)).setPending []) :=
  Leads.issue (next := fun answer => match answer with
    | some (.value v) => next v
    | _ => .done (.error .busError)) ha (step_rd h)

/-! Trust. -/

@[simp] theorem Trust.overtaken_self (a : Trust) : a.overtaken a = a := by
  cases a <;> rfl
@[simp] theorem Trust.and_sound (a : Trust) : a.and .sound = a := by cases a <;> rfl
@[simp] theorem Trust.sound_and (a : Trust) : Trust.sound.and a = a := rfl

/-- A result is sound exactly when both its sources are. -/
theorem Trust.and_eq_sound {a b : Trust} : a.and b = .sound ↔ a = .sound ∧ b = .sound := by
  cases a <;> cases b <;> decide

theorem Ledger.known_of_same {k : Standing} (h : d.ifPassed = k) (h' : d.ifFailed = k) :
    d.known = k := by
  simp [Ledger.known, h, h']

/-- A command that passed. -/
@[simp] theorem Standing.ended_true (k : Standing) (i : Instr) : k.ended i true = k.passed i := rfl

/-! A command with its test. -/

/-- What a host remembers after a command whose test it passed. -/
def Ledger.passedTest (d : Ledger) (i : Instr) (ilen : Nat) : Ledger :=
  { d.ran i with
    verdict := .passed, key := (d.key.after i).settle ilen, ifFailed := (d.ran i).ifPassed }

@[simp] theorem Ledger.passedTest_verdict (i : Instr) (n : Nat) :
    (d.passedTest i n).verdict = .passed := rfl
@[simp] theorem Ledger.passedTest_owed (i : Instr) (n : Nat) :
    (d.passedTest i n).owed = d.testOwed := rfl
@[simp] theorem Ledger.passedTest_testOwed (i : Instr) (n : Nat) :
    (d.passedTest i n).testOwed = d.testOwed := by simp [Ledger.testOwed]
@[simp] theorem Ledger.passedTest_consumed (i : Instr) (n : Nat) :
    (d.passedTest i n).consumed = if i = .iclr then false else d.consumed || readsIn i := rfl
@[simp] theorem Ledger.passedTest_streaming (i : Instr) (n : Nat) :
    (d.passedTest i n).streaming = streamingAfter d.streaming i := rfl
@[simp] theorem Ledger.passedTest_key (i : Instr) (n : Nat) :
    (d.passedTest i n).key = (d.key.after i).settle n := rfl

@[simp] theorem Ledger.passedTest_known (i : Instr) (n : Nat) :
    (d.passedTest i n).known = (d.before i).passed i := Ledger.known_of_same rfl rfl

/-- The run of a command that succeeds and of its test, dutiful or not. -/
theorem runPlan_tested {i : Instr} (hd : decode (encode i) = .ok i) (next : Procedure α)
    (h : exec i s = .next t) (h0 : t.errCode = 0) :
    ∃ u, t.SameBlock u ∧ runPlan (tested i next) s = runPlan next u := by
  have hread : memRead ((t.respond .done).setPending []) 4 (regOffset .err) = .ok 0 := by
    show Except.ok (State.errReg t) = _
    simp [State.errReg, h0]
  refine ⟨(((t.respond .done).setPending []).respond (.value 0)).setPending [],
    ⟨rfl, rfl, rfl, rfl, rfl⟩, ?_⟩
  rw [tested, runPlan, step_cmd hd h]
  exact (leads_rd (d := Ledger.start) (fun code =>
    if code = 0 then next else .done (.error (.code code))) rfl hread).run

/-- A command that succeeds, and its test. -/
theorem leads_tested {i : Instr} (hd : decode (encode i) = .ok i) (next : Procedure α)
    (ha : commandAllowed d s i = true) (h : exec i s = .next t) (h0 : t.errCode = 0) :
    ∃ u, t.SameBlock u ∧ Leads (tested i next) d s next (d.passedTest i t.ibuf.length) u := by
  have hcmd : moveAllowed d s (cmd i) = true := by
    simp [moveAllowed, cmd, commandMove, hd, ha]
  have hread : memRead ((t.respond .done).setPending []) 4 (regOffset .err) = .ok 0 := by
    show Except.ok (State.errReg t) = _
    simp [State.errReg, h0]
  have h1 := Leads.issue (next := fun _ => readThen .err fun code =>
    if code = 0 then next else .done (.error (.code code))) hcmd (step_cmd hd h)
  rw [note_cmd hd] at h1
  have h2 := h1.trans (leads_rd (fun code =>
    if code = 0 then next else .done (.error (.code code))) rfl hread)
  refine ⟨_, ?_, h2⟩
  exact ⟨rfl, rfl, rfl, rfl, rfl⟩

/-! Pushes. -/

/-- Bytes pushed onto an input not used yet; a key behind an ICLR is overwritten when 32 are in. -/
theorem leads_pushb (B : Bytes) (next : Plan α) (hc : d.consumed = false)
    (hroom : s.ibuf.length + B.length ≤ Config.bufcap) :
    ∃ k u, (s.setInput (s.ibuf ++ B)).SameBlock u ∧
      (B = [] → k = d.key) ∧ (d.key ≠ .lingering → B ≠ [] → 32 ≤ s.ibuf.length + B.length → k = .absent) ∧
      Leads (issueAll (pushb B) next) d s next { d with key := k } u := by
  induction B generalizing s d with
  | nil => exact ⟨d.key, s, by simp [State.SameBlock], by simp, by simp, Leads.refl ..⟩
  | cons b B ih =>
    simp only [List.length_cons] at hroom
    have ha : moveAllowed d s (pushMove b) = true := by simp [moveAllowed, pushMove, hc]
    have h1 := Leads.issue (next := fun _ => issueAll (pushb B) next) ha
      (step_push (b := b) (by omega))
    rw [note_push] at h1
    obtain ⟨k, u, hs, h0, hk, h2⟩ :=
      ih (d := { d with key := d.key.settle (s.ibuf.length + 1) })
        (s := ((s.setInput (s.ibuf ++ [b])).respond .done).setPending []) hc (by simp; omega)
    simp only [State.setPending_ibuf, State.respond_ibuf, State.setInput_ibuf, List.length_append,
      List.length_singleton] at h1
    refine ⟨k, u, by simpa [State.SameBlock] using hs, by simp, fun hl _ hn => ?_, h1.trans h2⟩
    simp only [List.length_cons] at hn
    by_cases hB : B = []
    · subst hB
      rw [h0 rfl]
      simp only [List.length_nil, Nat.zero_add] at hn
      show d.key.settle _ = _
      cases hd : d.key <;> simp_all [KeyTrace.settle]
    · refine hk ?_ hB (by simp; omega)
      show d.key.settle _ ≠ _
      unfold KeyTrace.settle
      split <;> simp_all

/-! The output. -/

/-- The words of the output from `i` on. -/
theorem leads_readWords (next : Bytes → Procedure α) (hp : d.verdict = .passed)
    (ho : d.owed = false) (hk : d.known.output = .sound) :
    ∀ (count i : Nat) (read : Bytes) (s : State), i + count = s.obuf.length → s.obuf.length ≤ 4096 →
      ∃ u, s.SameBlock u ∧
        Leads (readWords next count i read) d s (next (read ++ s.obuf.drop i)) d u
  | 0, i, read, s, h, _ => ⟨s, by simp [State.SameBlock], by
      rw [List.drop_of_length_le (by omega), List.append_nil]
      exact Leads.refl ..⟩
  | count + 1, i, read, s, h, hlen => by
    have hi : i < s.obuf.length := by omega
    have hm : memRead s 4 (regOffset (.obufWord i)) = .ok ((s.obuf[i]).zeroExtend 32) := by
      rw [regOffset, memRead_window s (by omega), List.getElem?_eq_getElem hi]
    have h1 := leads_rd (d := d) (fun v => readWords next count (i + 1) (read ++ [v.extractLsb' 0 8]))
      (by simp [moveAllowed, rd, hp, ho, hk]) hm
    rw [note_rd_data (by simp only [regOffset]; omega)] at h1
    have hb : ((s.obuf[i]).zeroExtend 32).extractLsb' 0 8 = s.obuf[i] := by
      apply BitVec.eq_of_toNat_eq
      simpa using (s.obuf[i]).isLt
    obtain ⟨u, hu, h2⟩ := leads_readWords next hp ho hk count (i + 1) (read ++ [s.obuf[i]])
      ((s.respond (.value ((s.obuf[i]).zeroExtend 32))).setPending []) (by simp; omega) hlen
    refine ⟨u, hu, ?_⟩
    have hd : s.obuf.drop i = s.obuf[i] :: s.obuf.drop (i + 1) := List.drop_eq_getElem_cons hi
    simp only [hb] at h1
    rw [hd, List.append_cons]
    exact h1.trans h2

/-- The whole output, after a passed test of every command, and with a sound result. -/
theorem leads_readOutput (next : Bytes → Procedure α) (hp : d.verdict = .passed)
    (ho : d.owed = false) (hk : d.known.output = .sound) (hlen : s.obuf.length ≤ 4096) :
    ∃ u, s.SameBlock u ∧ Leads (readOutput next) d s (next s.obuf) d u := by
  have h1 := leads_rd (d := d) (s := s) (r := .olen) (v := BitVec.ofNat 32 s.obuf.length)
    (fun n => readWords next n.toNat 0 []) (by simp [moveAllowed, rd, regOffset]) rfl
  rw [note_rd_data (by decide)] at h1
  have hn : (BitVec.ofNat 32 s.obuf.length).toNat = s.obuf.length := by
    simp only [BitVec.toNat_ofNat]
    omega
  simp only [hn] at h1
  obtain ⟨u, hu, h2⟩ := leads_readWords next hp ho hk s.obuf.length 0 []
    ((s.respond (.value (BitVec.ofNat 32 s.obuf.length))).setPending []) (by simp) hlen
  exact ⟨u, hu, h1.trans h2⟩

/-- The output read if wanted. -/
theorem leads_readIf (wanted : Bool) (next : Option Bytes → Procedure α) (hp : d.verdict = .passed)
    (ho : d.owed = false) (hk : d.known.output = .sound) (hlen : s.obuf.length ≤ 4096) :
    ∃ u, s.SameBlock u ∧
      Leads (readIf wanted next) d s (next (if wanted then some s.obuf else none)) d u := by
  cases wanted with
  | false => exact ⟨s, by simp [State.SameBlock], Leads.refl ..⟩
  | true => exact leads_readOutput (fun B => next (some B)) hp ho hk hlen

/-! LOAD and MOVE. -/

/-- LOAD makes the input the bytes, and overwrites a key that lay in IBUF. -/
theorem leads_loadTested (B : Bytes) (next : Procedure α) (hB : B.length ≤ Config.bufcap)
    (ho : d.testOwed = false) :
    ∃ d' u, Leads (loadTested B next) d s next d' u ∧
      (u.ibuf = B ∧ u.stream = s.stream ∧ u.obuf = s.obuf ∧ u.errCode = 0 ∧ u.errf = s.errf) ∧
      d'.testOwed = false ∧ d'.streaming = d.streaming ∧ d'.consumed = false ∧
      d'.known.input = .sound ∧ (32 ≤ B.length → d'.key = .absent) := by
  obtain ⟨u, ⟨a1, a2, a3, a4, a5⟩, h1⟩ := leads_tested (d := d) (s := s) (i := .iclr) rfl
    (issueAll (pushb B) next) rfl rfl rfl
  have a2 : u.ibuf = [] := a2
  obtain ⟨k, v, ⟨b1, b2, b3, b4, b5⟩, -, hk, h2⟩ :=
    leads_pushb (s := u) (d := d.passedTest .iclr 0) B next (by simp) (by simpa [a2] using hB)
  refine ⟨_, v, h1.trans h2, ⟨by simp [b2, a2], by simp [b1, a1], by simp [b3, a3], by simp [b4, a4],
    by simp [b5, a5]⟩, by simpa [Ledger.testOwed] using ho, rfl, rfl,
    congrArg Standing.input (Ledger.passedTest_known (d := d) .iclr 0), fun h => hk ?_ ?_ ?_⟩
  · show (d.key.after .iclr).settle 0 ≠ _
    cases hd : d.key <;> simp [KeyTrace.after, KeyTrace.clear, KeyTrace.settle]
  · rintro rfl
    simp at h
  · simpa [a2] using h

/-- MOVE makes the input the output, as sound as that. -/
theorem leads_moveTested (next : Procedure α) (hB : s.obuf.length ≤ Config.bufcap)
    (ho : d.testOwed = false) :
    ∃ d' u, Leads (moveTested next) d s next d' u ∧
      (u.ibuf = s.obuf ∧ u.stream = s.stream ∧ u.obuf = s.obuf ∧ u.errCode = 0 ∧ u.errf = s.errf) ∧
      d'.testOwed = false ∧ d'.streaming = d.streaming ∧ d'.consumed = false ∧
      (d.known.output = .sound → d'.known.input = .sound) := by
  obtain ⟨u, ⟨a1, a2, a3, a4, a5⟩, h1⟩ := leads_tested (d := d) (s := s) (i := .iclr) rfl
    (tested .xfer next) rfl rfl rfl
  have a2 : u.ibuf = [] := a2
  have a3 : u.obuf = s.obuf := a3
  obtain ⟨v, ⟨b1, b2, b3, b4, b5⟩, h2⟩ := leads_tested (d := d.passedTest .iclr 0) (s := u)
    (i := .xfer) rfl next (by simp [commandAllowed]) (execXfer_of_fits (by simp [a2, a3, hB])) rfl
  exact ⟨_, v, h1.trans h2, ⟨by simp [b2, a2, a3], by simp [b1, a1], by simp [b3, a3], by simp [b4],
    by simp [b5, a5]⟩, by simpa using ho, rfl, by simp [readsIn],
    by simp [Ledger.before, Standing.passed]⟩

/-! Coordinates and keys (R207). -/

/-- A 256-bit integer is supplied as exactly 32 bytes. -/
theorem length_leftPad32 {n : Nat} (h : n < 2 ^ 256) : (leftPad32 n).length = 32 := by
  have : (minBE n).length ≤ 32 := (length_minBE_le_iff n 32).mpr h
  simp only [leftPad32, List.length_append, List.length_replicate]
  omega

/-- The padding does not change the integer. -/
@[simp] theorem be_leftPad32 (n : Nat) : be (leftPad32 n) = n := by
  rw [leftPad32]
  exact (be_replicate_zero_append _ _).trans (be_minBE n)

end Sys2Proof.Machine
end

