-- ==== Sys2Proof/Laws/Duties.lean ====
section
/-! SUPPORT. Laws of what a host knows of its data (spec 48_host_context.md R207, log 8): each operation
on trust keeps what is known true of what is, and what a command or a bus error can do to either. -/

namespace Sys2Proof.Machine

variable {a b a' b' : Trust} {k truth : Standing} {f g : Bool} {i : Instr} {s t : State} {m : HostMove}

/-! Trust. -/

theorem Trust.covers_sound : Trust.Covers .sound .sound f := fun _ => rfl

theorem Trust.covers_unfit : Trust.Covers .unfit b f := by simp

/-- A flag that is set leaves less to be true. -/
theorem Trust.Covers.mono (h : a.Covers b f) (hg : g = false → f = false) : a.Covers b g :=
  fun hk => h (hk.imp_right fun hu => ⟨hu.1, hg hu.2⟩)

theorem Trust.Covers.and (h : a.Covers b f) (h' : a'.Covers b' f) :
    (a.and a').Covers (b.and b') f := by
  cases f <;> cases a <;> cases a' <;> cases b <;> cases b' <;>
    simp_all [Trust.Covers, Trust.and]

theorem Trust.Covers.proved (h : a.Covers b false) : a.proved.Covers b false := by
  cases a <;> cases b <;> simp_all [Trust.Covers, Trust.proved]

/-- What CLRERR leaves trusted is so whatever the flag says. -/
theorem Trust.Covers.abandoned (h : a.Covers b f) : a.abandoned.Covers b g := by
  cases f <;> cases g <;> cases a <;> cases b <;> simp_all [Trust.Covers, Trust.abandoned]

/-- What is known of a string before the last command is tested, with an error record that is legal. -/
theorem Trust.covers_overtaken (he : s.errorWf)
    (h : (if s.errCode = 0 then a else b).Covers a' s.errf) :
    (a.overtaken b).Covers a' s.errf := by
  by_cases hc : s.errCode = 0
  · rw [if_pos hc] at h
    cases hf : s.errf <;> rw [hf] at h <;> cases a <;> cases b <;> cases a' <;>
      simp_all [Trust.Covers, Trust.overtaken]
  · have hf := he.2 hc
    rw [if_neg hc, hf] at h
    rw [hf]
    cases a <;> cases b <;> cases a' <;> simp_all [Trust.Covers, Trust.overtaken]

/-! Standing. -/

theorem Standing.Covers.mono {k truth : Standing} (h : k.Covers truth f)
    (hg : g = false → f = false) : k.Covers truth g :=
  ⟨h.1.mono hg, h.2.1.mono hg, h.2.2.mono hg⟩

theorem Standing.Covers.proved {k truth : Standing} (h : k.Covers truth false) :
    k.proved.Covers truth false := ⟨h.1.proved, h.2.1.proved, h.2.2.proved⟩

theorem Standing.Covers.abandoned {k truth : Standing} (h : k.Covers truth f) :
    k.abandoned.Covers truth g := ⟨h.1.abandoned, h.2.1.abandoned, h.2.2.abandoned⟩

/-- A command that ends the same way keeps what is known true. -/
theorem Standing.Covers.ended (h : k.Covers truth f) (i : Instr) (ok : Bool) :
    (k.ended i ok).Covers (truth.ended i ok) f := by
  obtain ⟨h1, h2, h3⟩ := h
  unfold Standing.ended
  split
  · cases i <;> first
      | exact ⟨h1, h2, h3⟩
      | exact ⟨h1, h2, Trust.covers_sound⟩
      | exact ⟨h2, h2, h3⟩
      | exact ⟨h2, h2, Trust.covers_sound⟩
      | exact ⟨h3, h2, Trust.covers_sound⟩
      | exact ⟨h1, Trust.covers_sound, h3⟩
      | exact ⟨h1, h2, h3.and h2⟩
      | exact ⟨h1, h2.and h1, h3⟩
  · unfold Standing.failed
    split
    · exact ⟨h1, Trust.covers_unfit, h3⟩
    · exact ⟨Trust.covers_unfit, h2, h3⟩

/-- What the host can tell without testing its last command is true. -/
theorem Ledger.known_covers {d : Ledger} (he : s.errorWf)
    (h : (if s.errCode = 0 then d.ifPassed else d.ifFailed).Covers truth s.errf) :
    d.known.Covers truth s.errf := by
  refine ⟨Trust.covers_overtaken he ?_, Trust.covers_overtaken he ?_, Trust.covers_overtaken he ?_⟩
  · simpa only [apply_ite] using h.1
  · simpa only [apply_ite] using h.2.1
  · simpa only [apply_ite] using h.2.2

/-! Commands and bus errors, as the host's ledger needs them. -/

theorem errCode_of_canFail_eq_false (h : exec i s = .next t) (hc : canFail i = false) :
    t.errCode = 0 := by
  cases i <;> simp [canFail] at hc <;> (obtain rfl := Host.Outcome.next.inj h; rfl)

/-- Only CLRERR clears the flag. -/
theorem errf_of_exec (h : exec i s = .next t) (hi : i ≠ .clrerr) (ht : t.errf = false) :
    s.errf = false := by
  rcases exec_cases i s with ⟨c, hk⟩ | ⟨u, hu, hS⟩
  · rw [hk] at h
    obtain rfl := Host.Outcome.next.inj h
    simp at ht
  · rw [hu] at h
    obtain rfl := Host.Outcome.next.inj h
    exact (hS.flag hi).symm.trans ht

/-- With no message in progress, only D160.UPDATE begins one. -/
theorem stream_of_exec (h : exec i s = .next t) (hs : s.stream = Stream.initial)
    (hi : i ≠ .d160Update) : t.stream = Stream.initial := by
  rcases exec_cases i s with ⟨c, hk⟩ | ⟨u, hu, hS⟩
  · rw [hk] at h
    obtain rfl := Host.Outcome.next.inj h
    exact hs
  · rw [hu] at h
    obtain rfl := Host.Outcome.next.inj h
    cases i
    case d160Update => exact absurd rfl hi
    case d160Init | d160Final | d160Digest =>
      obtain rfl := Host.Outcome.next.inj hu
      rfl
    case drvAddr =>
      simp only [exec, execDrvAddr] at hu
      split at hu <;> obtain rfl := Host.Outcome.next.inj hu <;> simp [hs]
    all_goals rw [hS.stream rfl, hs]

/-- A move that ends as a bus error is neither a reset nor a command, and changes the answer alone. -/
theorem busError_move {c : BusCause} (hk : hostMove m s = busError c s) (ht : hostMove m s = .next t) :
    m ≠ .reset ∧ (∀ v, m ≠ .write 4 0x0000 v) ∧ t = s.respond .busError := by
  have e := busError_next (hk ▸ ht)
  subst e
  refine ⟨?_, ?_, rfl⟩
  · rintro rfl
    simpa using congrArg (fun t => t.host.response) (Host.Outcome.next.inj ht)
  · rintro v rfl
    simp only [hostMove, hostWrite, memWritePort_cmd] at ht
    rcases runCommand_cases v (s.respond .done) with ⟨k, hx⟩ | ⟨i, u, hd, hu, hS⟩
    · rw [hx] at ht
      simpa using congrArg (fun t => t.host.response) (Host.Outcome.next.inj ht)
    · rw [hu] at ht
      have := congrArg (fun t => t.host.response) (Host.Outcome.next.inj ht)
      rw [hS.host] at this
      simp at this

end Sys2Proof.Machine
end

