-- ==== Sys2Proof/Laws/Memory.lean ====
section
/-! SUPPORT. The buffers' canonical form `Memory.wf` (spec 10_state.md R31, R33): it holds at reset, and
every shared operation that writes a buffer keeps it, each under the check its caller makes. -/

namespace Sys2Proof.Machine

variable {s : State}

theorem Memory.wf_reset : Memory.wf State.reset := by simp [Memory.wf]

theorem Memory.wf_succeed (h : Memory.wf s) : Memory.wf s.succeed := h

theorem Memory.wf_raiseFail (h : Memory.wf s) (k : ErrKind) : Memory.wf (s.raiseFail k) := h

theorem Memory.wf_clearError (h : Memory.wf s) : Memory.wf s.clearError := h

theorem Memory.wf_setStream (h : Memory.wf s) (st : Stream) : Memory.wf (s.setStream st) := h

theorem Memory.wf_respond (h : Memory.wf s) (r : Response) : Memory.wf (s.respond r) := h

theorem Memory.wf_setPending (h : Memory.wf s) (moves : List HostMove) :
    Memory.wf (s.setPending moves) := h

/-- An output that fits (R227). -/
theorem Memory.wf_deliver (h : Memory.wf s) {B : Bytes} (hB : B.length ≤ Config.bufcap) :
    Memory.wf (s.deliver B) := ⟨h.1, hB⟩

/-- An input that fits (R190, R191). -/
theorem Memory.wf_setInput (h : Memory.wf s) {B : Bytes} (hB : B.length ≤ Config.bufcap) :
    Memory.wf (s.setInput B) := ⟨hB, h.2⟩

/-- A push with room (R36). -/
theorem Memory.wf_push (h : Memory.wf s) (hroom : s.ibuf.length < Config.bufcap) (v : Word) :
    Memory.wf (s.push v) := ⟨by simpa using hroom, h.2⟩

end Sys2Proof.Machine
end

