-- ==== Sys2Proof/Laws/PerInstr.lean ====
section
/-! SUPPORT. One family of facts about every command as syntax: its word's fields are the ones its
constructor stands for, and they pass the three word checks (spec 30_encoding.md R81, R83, R84). -/

namespace Sys2Proof.Laws.EncodedFields

/-- The fields of the command's word, and that they are well formed. -/
def Statement (i : Instr) : Prop := fieldsOf (encode i) = i.fields ∧ i.wf = true

theorem d160Init : Statement .d160Init := ⟨by decide, by decide⟩
theorem d160Update : Statement .d160Update := ⟨by decide, by decide⟩
theorem d160Final : Statement .d160Final := ⟨by decide, by decide⟩
theorem d160Digest : Statement .d160Digest := ⟨by decide, by decide⟩
theorem b58Enc : Statement .b58Enc := ⟨by decide, by decide⟩
theorem b58Dec : Statement .b58Dec := ⟨by decide, by decide⟩
theorem chkAttach : Statement .chkAttach := ⟨by decide, by decide⟩
theorem chkVerify : Statement .chkVerify := ⟨by decide, by decide⟩
theorem kfFormat : Statement .kfFormat := ⟨by decide, by decide⟩
theorem kfCompress : Statement .kfCompress := ⟨by decide, by decide⟩
theorem impWif : Statement .impWif := ⟨by decide, by decide⟩
theorem xfer : Statement .xfer := ⟨by decide, by decide⟩
theorem clrerr : Statement .clrerr := ⟨by decide, by decide⟩
theorem iclr : Statement .iclr := ⟨by decide, by decide⟩
theorem extH256 : Statement .extH256 := ⟨by decide, by decide⟩

/-- The 256 words of DRV.ADDR. -/
theorem fieldsOf_drvAddr : ∀ a : Byte, fieldsOf (encode (.drvAddr a)) = ⟨0, a, 0x30⟩ := by
  decide +kernel

/-- The 256 words of DRV.WIF. -/
theorem fieldsOf_drvWif : ∀ a : Byte, fieldsOf (encode (.drvWif a)) = ⟨0, a, 0x31⟩ := by
  decide +kernel

theorem drvAddr (a : Byte) : Statement (.drvAddr a) := ⟨fieldsOf_drvAddr a, by
  simp [Instr.wf, Instr.fields, Fields.wf, Fields.reservedZero, Fields.opcodeAssigned,
    Fields.argAllowed, assignedOpcodes]⟩

theorem drvWif (a : Byte) : Statement (.drvWif a) := ⟨fieldsOf_drvWif a, by
  simp [Instr.wf, Instr.fields, Fields.wf, Fields.reservedZero, Fields.opcodeAssigned,
    Fields.argAllowed, assignedOpcodes]⟩

end Sys2Proof.Laws.EncodedFields
end

