-- ==== Sys2Proof/Tests/Slice0.lean ====
section
/-! SUPPORT. The model's own tests: ill-formed words refused, words written out from the spec's encoding,
small checks of each command against the values spec/95_test_vectors.md and the rules' examples
print, and for every statement with hypotheses a state that meets them. -/

namespace Sys2Proof.Tests

open Sys2Proof.Machine

/-- A reset block with these input and output strings. -/
def block (ib ob : Bytes) : State := { State.reset with ibuf := ib, obuf := ob }

/-- The same, with the host about to make these moves. -/
def driven (moves : List HostMove) (ib ob : Bytes) : State := (block ib ob).setPending moves

/-- A string as ASCII bytes (20_memory.md R58). -/
def ascii (text : String) : Bytes := text.toList.map fun c => BitVec.ofNat 8 c.toNat

/-- The bytes n, n+1, ... of a run. -/
def run (n k : Nat) : Bytes := (List.range k).map fun i => BitVec.ofNat 8 (n + i)

/-- The block of a next state: input, output, code, flag. -/
def outcome (r : Result) : Option (Bytes × Bytes × Byte × Bool) :=
  match r with
  | .next t => some (t.ibuf, t.obuf, t.errCode, t.errf)
  | .fault _ => none
  | .refused _ => none

/-- The digest stream of a next state. -/
def streamAfter (r : Result) : Option Stream :=
  match r with
  | .next t => some t.stream
  | .fault _ => none
  | .refused _ => none

/-! ### Well-formedness (30_encoding.md R83): one ill-formed term for each check -/

theorem test_wf_refuses_reserved : Fields.reservedZero ⟨0x8000, 0x00, 0x30⟩ = false := by decide
theorem test_wf_refuses_opcode : Fields.opcodeAssigned ⟨0, 0x00, 0x05⟩ = false := by decide
theorem test_wf_refuses_arg : Fields.argAllowed ⟨0, 0x80, 0x10⟩ = false := by decide
theorem test_wf_refuses_each : Fields.wf ⟨1, 0, 0x01⟩ = false ∧ Fields.wf ⟨0, 0, 0x00⟩ = false ∧
    Fields.wf ⟨0, 0xFF, 0x42⟩ = false ∧ Fields.wf ⟨0, 0xFF, 0x30⟩ = true := by decide

/-! ### Decoding: RSV (16 bits), ARG (8 bits), OPC (8 bits), written bit by bit from R81 and R84 -/

theorem test_decode_digest_unit :
    decode 0b0000000000000000_00000000_00000001 = .ok .d160Init ∧
    decode 0b0000000000000000_00000000_00000010 = .ok .d160Update ∧
    decode 0b0000000000000000_00000000_00000011 = .ok .d160Final ∧
    decode 0b0000000000000000_00000000_00000100 = .ok .d160Digest := by decide
theorem test_decode_base58_and_checksum :
    decode 0b0000000000000000_00000000_00010000 = .ok .b58Enc ∧
    decode 0b0000000000000000_00000000_00010001 = .ok .b58Dec ∧
    decode 0b0000000000000000_00000000_00010010 = .ok .chkAttach ∧
    decode 0b0000000000000000_00000000_00010011 = .ok .chkVerify := by decide
theorem test_decode_key_formatter :
    decode 0b0000000000000000_00000000_00100000 = .ok .kfFormat ∧
    decode 0b0000000000000000_00000000_00100001 = .ok .kfCompress := by decide
theorem test_decode_pipeline :
    decode 0b0000000000000000_00000000_00110000 = .ok (.drvAddr 0x00) ∧
    decode 0b0000000000000000_11111111_00110000 = .ok (.drvAddr 0xFF) ∧
    decode 0b0000000000000000_10000000_00110001 = .ok (.drvWif 0x80) ∧
    decode 0b0000000000000000_00000000_00110010 = .ok .impWif := by decide
theorem test_decode_buffers_and_system :
    decode 0b0000000000000000_00000000_01000000 = .ok .xfer ∧
    decode 0b0000000000000000_00000000_01000001 = .ok .clrerr ∧
    decode 0b0000000000000000_00000000_01000010 = .ok .iclr ∧
    decode 0b0000000000000000_00000000_01010000 = .ok .extH256 := by decide
/-- 95_test_vectors.md 7.2: opcodes next to the assigned ones. -/
theorem test_decode_unassigned :
    decode 0x00 = .error .unassignedOpcode ∧
    decode 0x05 = .error .unassignedOpcode ∧
    decode 0x0F = .error .unassignedOpcode ∧
    decode 0x14 = .error .unassignedOpcode ∧
    decode 0x22 = .error .unassignedOpcode ∧
    decode 0x33 = .error .unassignedOpcode ∧
    decode 0x43 = .error .unassignedOpcode ∧
    decode 0x51 = .error .unassignedOpcode ∧
    decode 0x99 = .error .unassignedOpcode ∧
    decode 0xFF = .error .unassignedOpcode := by decide
/-- 95_test_vectors.md 7.2 and section 6: ARG and RSV. -/
theorem test_decode_arg_and_reserved :
    decode 0x101 = .error .argNotZero ∧
    decode 0x8010 = .error .argNotZero ∧
    decode 0xFF42 = .error .argNotZero ∧
    decode 0x132 = .error .argNotZero ∧
    decode 0x10001 = .error .reservedBits ∧
    decode 0x80000030 = .error .reservedBits ∧
    decode 0xFFFF8031 = .error .reservedBits ∧
    decode 0x10099 = .error .reservedBits := by decide
theorem test_decodeTableWord : decodeTableWord 32 0x8031 = some (.drvWif 0x80) ∧
    decodeTableWord 32 0x80000001 = none ∧ decodeTableWord 8 0x41 = some .clrerr := by decide
/-- A step runs the word `withFetchWord` places, as the first command after reset. -/
theorem test_withFetchWord : outcome (step (State.reset.withFetchWord 32 0x32)) =
    some ([], [], 5, true) := by decide

/-! ### Byte order and the primitive operations (95_test_vectors.md 3.1) -/

theorem test_byte_order : lew [0x61, 0x62, 0x63, 0x80] = 0x80636261 ∧
    le32 0xA585119C = [0x9C, 0x11, 0x85, 0xA5] ∧ be [0x01, 0x02] = 258 := by decide
theorem test_rol32 : rol32 0x80000001 10 = 0x00000600 ∧ rol32 0x12345678 10 = 0xD159E048 ∧
    rol32 0xCE8A4682 11 = 0x52341674 := by decide
theorem test_boolFn :
    ([1, 2, 3, 4, 5].map fun n => boolFn n 0xFFFF0000 0xFF00FF00 0xF0F0F0F0) =
      [0xF00F0FF0, 0xFF00F0F0, 0x0F0FF00F, 0xFFF00F00, 0x00F0FF0F] := by decide
/-- 95_test_vectors.md 3.4, "abc": steps 0, 16 and 79 of the main chain and step 1 of the parallel. -/
theorem test_step_traces :
    let X := blockWords (pad [0x61, 0x62, 0x63] 24)
    mainChain X Chain.iv 1 = ⟨0xC3D2E1F0, 0x3115FC67, 0xEFCDAB89, 0xEB73FA62, 0x10325476⟩ ∧
    mainChain X Chain.iv 17 = ⟨0x17D1BEF0, 0x6347EF78, 0x597BF629, 0x18740A16, 0x53C14C52⟩ ∧
    mainChain X Chain.iv 80 = ⟨0x641129CA, 0xD563BFDC, 0x0B2CDC01, 0x6E413468, 0xFC433DA8⟩ ∧
    parChain X Chain.iv 2 = ⟨0x10325476, 0x322E7AE3, 0xDDD63FB8, 0x36AE27BF, 0xEB73FA62⟩ := by
  decide +kernel
/-- 95_test_vectors.md 3.3: the padding boundaries, and the order of the two length words. -/
theorem test_padding :
    pad (List.replicate 55 0) 440 =
      List.replicate 55 0 ++ [0x80, 0xB8, 0x01, 0, 0, 0, 0, 0, 0] ∧
    pad (List.replicate 56 0) 448 = List.replicate 56 0 ++ [0x80] ++ List.replicate 63 0
      ++ [0xC0, 0x01, 0, 0, 0, 0, 0, 0] ∧
    pad [0x01, 0x02] 0x0123456789ABCDF0 = [0x01, 0x02, 0x80] ++ List.replicate 53 0
      ++ [0xF0, 0xCD, 0xAB, 0x89, 0x67, 0x45, 0x23, 0x01] := by decide +kernel

/-! ### The commands, one small state each -/

/-- R130: the example; the flag stays. -/
theorem test_d160Init : exec .d160Init { block [] [] with
      stream := ⟨⟨1, 2, 3, 4, 5⟩, [0x61, 0x62, 0x63], 24⟩, errCode := 3, errf := true } =
    .next { State.reset with errf := true } := by rfl
/-- R131: the example, first UPDATE. -/
theorem test_d160Update : streamAfter (exec .d160Update (block (List.replicate 32 0) [])) =
    some ⟨Chain.iv, List.replicate 32 0, 256⟩ := by decide +kernel
/-- R132: the example. -/
theorem test_d160Final : outcome (exec .d160Final { block [] [0xFF] with
      stream := ⟨Chain.iv, [0x61, 0x62, 0x63], 24⟩ }) =
    some ([], [0x8E, 0xB2, 0x08, 0xF7, 0xE0, 0x5D, 0x98, 0x7A, 0x9B, 0x04, 0x4A, 0x8E, 0x98, 0xC6,
      0xB0, 0x87, 0xF1, 0x5A, 0x0B, 0xFC], 0, false) := by decide +kernel
/-- 95_test_vectors.md 3.2, line 12: the shortest message padded into a second block. -/
theorem test_d160Digest : outcome (exec .d160Digest (block (List.replicate 56 0) [])) =
    some (List.replicate 56 0, [0x77, 0x24, 0xD7, 0xCD, 0xBB, 0xE2, 0x4A, 0x75, 0xA5, 0x89, 0x58,
      0xD7, 0x84, 0xE3, 0xA3, 0x25, 0xCE, 0x0E, 0x9C, 0x7C], 0, false) := by decide +kernel
/-- 95_test_vectors.md 3.2, line 9. -/
theorem test_digest_fox : digest160 (ascii "The quick brown fox jumps over the lazy dog") =
    [0x37, 0xF3, 0x32, 0xF6, 0x8D, 0xB7, 0x7B, 0xD9, 0xD7, 0xED, 0xD4, 0x96, 0x95, 0x71, 0xAD, 0x67,
      0x1C, 0xF9, 0xDD, 0x3B] := by decide +kernel
/-- R155: the example. -/
theorem test_b58Enc : exec .b58Enc (block [0x00, 0x00, 0x28, 0x7F, 0xB4, 0xCD] []) =
    .next (block [0x00, 0x00, 0x28, 0x7F, 0xB4, 0xCD] (ascii "11233QC4")) := by rfl
/-- 95_test_vectors.md V1: the address text of the 25-byte checksummed payload. -/
theorem test_b58Enc_address : b58Enc [0x00, 0x45, 0x32, 0x33, 0x60, 0x0A, 0x96, 0x38, 0x4B, 0xB8, 0xD7,
      0x3D, 0x40, 0x09, 0x84, 0x11, 0x7A, 0xC8, 0x4D, 0x7E, 0x8B, 0x51, 0x2F, 0x43, 0xC4] =
    ascii "17JsmEygbbEUEpvt4PFtYaTeSqfb9ki1F1" := by decide +kernel
/-- 95_test_vectors.md P4: "2g" decodes; "2O" fails and leaves the earlier output. -/
theorem test_b58Dec : outcome (exec .b58Dec (block (ascii "2g") [])) =
    some (ascii "2g", [0x61], 0, false) := by decide +kernel
theorem test_b58Dec_invalid : outcome (exec .b58Dec (block (ascii "2O") [0x61])) =
    some (ascii "2O", [0x61], 3, true) := by decide +kernel
/-- R157: ILEN = 0 gives four bytes. -/
theorem test_chkAttach : exec .chkAttach (block [] [0xFF]) =
    .next (block [] ((Config.h256 (Config.h256 [])).take 4)) := by rfl
/-- R158: three bytes are too few, and the earlier output stays. -/
theorem test_chkVerify : outcome (exec .chkVerify (block [1, 2, 3] [0xFF])) =
    some ([1, 2, 3], [0xFF], 1, true) := by decide
/-- R171: the example, and one byte short. -/
theorem test_kfFormat : outcome (exec .kfFormat (block (run 0 64) [])) =
    some (run 0 64, 0x04 :: run 0 64, 0, false) := by decide +kernel
theorem test_kfFormat_short : outcome (exec .kfFormat (block (run 0 63) [])) =
    some (run 0 63, [], 1, true) := by decide +kernel
/-- R172: a last byte D7 is odd, 3E even; a wrong marker fails. -/
theorem test_kfCompress :
    outcome (exec .kfCompress (block ([0x04] ++ run 1 63 ++ [0xD7]) [])) =
      some ([0x04] ++ run 1 63 ++ [0xD7], 0x03 :: run 1 32, 0, false) ∧
    outcome (exec .kfCompress (block ([0x04] ++ run 1 63 ++ [0x3E]) [])) =
      some ([0x04] ++ run 1 63 ++ [0x3E], 0x02 :: run 1 32, 0, false) := by decide +kernel
theorem test_kfCompress_marker : outcome (exec .kfCompress (block ([0x02] ++ run 1 64) [])) =
    some ([0x02] ++ run 1 64, [], 2, true) := by decide +kernel
/-- R254: a failed DRV.ADDR leaves a message in progress. -/
theorem test_drvAddr : exec (.drvAddr 0x00) { block (run 0 32) [] with
      stream := ⟨Chain.iv, [0x61], 8⟩ } = .next { block (run 0 32) [] with
      stream := ⟨Chain.iv, [0x61], 8⟩, errCode := 1, errf := true } := by rfl
/-- 95_test_vectors.md section 6: ILEN = 33. -/
theorem test_drvWif : outcome (exec (.drvWif 0x80) (block (run 0 33) [])) =
    some (run 0 33, [], 1, true) := by decide +kernel
/-- 95_test_vectors.md V2: the WIF text of the 37-byte payload. -/
theorem test_b58Enc_wif : b58Enc [0x80, 0x2D, 0x07, 0xEA, 0x19, 0x03, 0xCD, 0x9D, 0x74, 0x29, 0x0E, 0x6F,
      0x29, 0x9E, 0xDC, 0x2D, 0xC2, 0x56, 0x82, 0xFB, 0xE2, 0x42, 0xB7, 0xB3, 0xF5, 0x42, 0x7F,
      0xBB, 0x37, 0xA4, 0x21, 0xFD, 0xF5, 0x73, 0x55, 0xA1, 0x7A] =
    ascii "5JA7qRwGq2NV5j4ARcoCjCWViHMRvMpPANkafPSr2cvSTh5wYeD" := by decide +kernel
/-- R182. -/
theorem test_impWif : outcome (exec .impWif (block [1] [2])) = some ([1], [2], 5, true) := by decide
/-- R190: the example, and 95_test_vectors.md 7.1, first line. -/
theorem test_xfer : outcome (exec .xfer (block [0x00] [7, 8])) =
    some ([0x00, 7, 8], [7, 8], 0, false) := by decide
theorem test_xfer_empty : outcome (exec .xfer (block [] [])) = some ([], [], 0, false) := by decide
/-- R192: the example. -/
theorem test_clrerr : exec .clrerr { State.reset with errCode := 3, errf := true } =
    .next State.reset := by rfl
/-- R191. -/
theorem test_iclr : outcome (exec .iclr { block [1, 2] [3] with errf := true }) =
    some ([], [3], 0, true) := by decide
/-- R193. -/
theorem test_extH256 : exec .extH256 (block [0x61] []) =
    .next (block [0x61] (Config.h256 [0x61])) := by rfl

/-! ### Bus transactions (95_test_vectors.md 7.3) -/

theorem test_reads_from_reset :
    memRead State.reset 4 0x0004 = .ok 0 ∧ memRead State.reset 4 0x0020 = .ok 0x67452301 ∧
    memRead State.reset 4 0x0030 = .ok 0xC3D2E1F0 ∧ memRead State.reset 4 0x0038 = .ok 0 := by
  refine ⟨rfl, rfl, rfl, rfl⟩
theorem test_read_bus_errors :
    ([(4, 0x0000), (4, 0x0018), (4, 0x001C), (4, 0x003C), (4, 0x3FFC), (4, 0x0002), (1, 0x0004),
      (2, 0x0004), (4, 0x8000), (4, 0x4000), (4, 0x7FFC)].map
        fun p => (memRead State.reset p.1 p.2).toOption) = List.replicate 11 none := by decide +kernel
theorem test_write_bus_errors :
    ([0x0004, 0x0008, 0x0010, 0x0020, 0x4000, 0x001C].map
        fun off => (memWritePort State.reset 4 off).toOption) = List.replicate 6 none := by
  decide +kernel
/-- A push ignores bits 31:8. -/
theorem test_push : outcome (step (driven [.write 4 0x0018 0xFFFFFF41] [] [])) =
    some ([0x41], [], 0, false) := by decide
theorem test_illegal_word : outcome (step (driven [.write 4 0x0000 0x00010099] [1] [2])) =
    some ([1], [2], 6, true) := by decide
/-- A bus error of either policy (log 4). -/
theorem test_bus_error_policies :
    outcome (step (driven [.read 4 0x0000] [1] [2])) = some ([1], [2], 0, false) ∧
    step { driven [.read 4 0x0000] [1] [2] with
      host := ⟨[.read 4 0x0000], none, .stops⟩ } = .fault (.busError .readOfWriteOnly) :=
  ⟨by decide, rfl⟩
/-- The assembler's lines (30_encoding.md R88) are the transactions 95_test_vectors.md P1 prints. -/
theorem test_assembler : cmd .d160Update = .write 4 0x0000 0x00000002 ∧
    cmd (.drvWif 0x80) = .write 4 0x0000 0x00008031 ∧
    pushMove 0x61 = .write 4 0x0018 0x00000061 ∧ rd .dlenLo = .read 4 0x0034 ∧
    rd (.h 4) = .read 4 0x0030 ∧ rd (.obufWord 19) = .read 4 0x404C := by decide

/-! ### The host (48_host_context.md R200, R207) -/

/-- What a procedure ends with. -/
def report {α : Type} (r : Host.Outcome (Except GaveUp α × State) Fault Refusal) : Option (Except GaveUp α) :=
  match r with
  | .next (x, _) => some x
  | .fault _ => none
  | .refused _ => none

/-- The moves of 95_test_vectors.md P1 are dutiful: the output is read after a test of ERR. -/
theorem test_dutiful_P1 : dutiful true (Plan.ofMoves ([cmd .d160Init] ++ pushb [0x61, 0x62, 0x63] ++
    [cmd .d160Update, rd .dlenLo, rd (.h 0), cmd .d160Final, rd .err] ++ rdout 20))
    Ledger.start State.reset = true := by decide +kernel
/-- Without that test they are not; nor with a DIGEST inside the message, nor with a push onto the
absorbed input. -/
theorem test_undutiful :
    dutiful false (Plan.ofMoves [cmd .d160Final, rd (.obufWord 0)]) Ledger.start State.reset = false ∧
    dutiful false (Plan.ofMoves [cmd .d160Update, cmd .d160Digest]) Ledger.start State.reset = false ∧
    dutiful false (Plan.ofMoves [pushMove 0x61, cmd .d160Update, pushMove 0x62])
      Ledger.start State.reset = false ∧
    dutiful false (Plan.ofMoves [cmd .kfFormat]) Ledger.start State.reset = false ∧
    dutiful false (Plan.ofMoves [pushMove 0x00, cmd .b58Dec]) Ledger.start State.reset = false := by
  decide +kernel
/-- 95_test_vectors.md P4: once a command asked for an output has failed, the window is stale, whatever
passes after it; CLRERR itself is any host's to issue. -/
theorem test_undutiful_P4 :
    dutiful false (Plan.ofMoves [pushMove 0x4F, cmd .b58Dec, rd .err, cmd .clrerr, rd .err])
      Ledger.start State.reset = true ∧
    dutiful false (Plan.ofMoves [pushMove 0x4F, cmd .b58Dec, rd .err, cmd .clrerr, rd .err,
      rd (.obufWord 0)]) Ledger.start State.reset = false := by decide +kernel
/-- 70_reset_and_hazards.md R256: after a failed B58.DEC followed blindly by MOVE the bytes are stale, and
neither a later ERR = 0 nor STATUS = 1 makes the digest of them fit to read; a new input does. -/
theorem test_undutiful_stale_input :
    dutiful false (Plan.ofMoves ([pushMove 0x4F, cmd .b58Dec] ++ moveOut ++ [cmd .extH256, rd .err,
      rd .status, rd (.obufWord 0)])) Ledger.start State.reset = false ∧
    dutiful false (Plan.ofMoves ([pushMove 0x4F, cmd .b58Dec, rd .err] ++ load [0x61] ++
      [cmd .d160Digest, rd .err, rd (.obufWord 0)])) Ledger.start State.reset = true := by
  decide +kernel
/-- R256: "or check STATUS.ERRF = 0 at the end of a sequence that began with ERRF = 0"; a CLRERR in the
sequence spoils that test. -/
theorem test_dutiful_status_at_the_end :
    dutiful false (Plan.ofMoves ([pushMove 0x61, cmd .b58Enc] ++ moveOut ++ [cmd .b58Dec, rd .status,
      rd (.obufWord 0)])) Ledger.start State.reset = true ∧
    dutiful false (Plan.ofMoves ([pushMove 0x61, cmd .b58Enc] ++ moveOut ++ [cmd .clrerr, cmd .b58Dec,
      rd .status, rd (.obufWord 0)])) Ledger.start State.reset = false := by decide +kernel
/-- R89, B58C.DEC: "the host must test ERR after `B58.DEC` and stop there if it is not 0". -/
theorem test_b58cDec_stops : report (runPlan b58cDecPlan (block (ascii "2O") [0x61])) =
    some (.error (.code 3)) := by rfl
/-- R207: "left-padded with zeros". -/
theorem test_leftPad32 : leftPad32 0x0102 = List.replicate 30 0x00 ++ [0x01, 0x02] := by decide +kernel

/-! ### Witnesses: states and operands that meet the hypotheses of each statement -/

theorem test_witness_ResetAndItsSoftwareCounterpart :
    (driven [.reset] [1] [2]).host.pending = .reset :: [] := rfl

theorem test_witness_DecodeAndEncodeAgree : decode 0x0000FF30 = .ok (.drvAddr 0xFF) := by decide

/-- One word for each clause; 0x0000FF30 and 0x00000142 stand at the edge of the last two. -/
theorem test_witness_IllegalWordsFailInOrder :
    (0x00010099 : Word).extractLsb' 16 16 ≠ 0 ∧
    ((0x0000FF51 : Word).extractLsb' 16 16 = 0 ∧ (0x0000FF51 : Word).extractLsb' 0 8 ∉ assignedOpcodes) ∧
    ((0x00000132 : Word).extractLsb' 16 16 = 0 ∧ (0x00000132 : Word).extractLsb' 0 8 ∈ assignedOpcodes ∧
      (0x00000132 : Word).extractLsb' 0 8 ≠ 0x30 ∧ (0x00000132 : Word).extractLsb' 0 8 ≠ 0x31 ∧
      (0x00000132 : Word).extractLsb' 8 8 ≠ 0) ∧
    ((0x0000FF31 : Word).extractLsb' 16 16 = 0 ∧ (0x0000FF31 : Word).extractLsb' 0 8 ∈ assignedOpcodes ∧
      (0x0000FF31 : Word).extractLsb' 0 8 = 0x31) ∧
    ((0x00000032 : Word).extractLsb' 0 8 ∈ assignedOpcodes ∧ (0x00000032 : Word).extractLsb' 8 8 = 0) ∧
    decode 0x00000000 = .error .unassignedOpcode := by decide

theorem test_witness_StepRunsTheDecodedCommand :
    (driven [.write 4 0x0000 0x00000040] [] []).host.pending = .write 4 0x0000 0x00000040 :: [] ∧
    decode 0x00000040 = .ok .xfer ∧ (block [1] [2]).host.pending = [] := by decide

theorem test_witness_D160UpdateResult : (block [] []).ibuf = [] := rfl

theorem test_witness_D160FinalResult : (block [] []).stream = Stream.initial ∧
    ({ block [] [] with stream := absorb Stream.initial [0x61, 0x62, 0x63] } : State).stream =
      absorb Stream.initial [0x61, 0x62, 0x63] := ⟨rfl, rfl⟩

/-- The lengths where the clauses meet: 55 and 56, and the two ends. -/
theorem test_witness_PaddingShape : (List.replicate 55 (0 : Byte)).length ≤ 55 ∧
    56 ≤ (List.replicate 56 (0 : Byte)).length ∧ (List.replicate 63 (0 : Byte)).length ≤ 63 ∧
    ([] : Bytes).length ≤ 55 := by decide

theorem test_witness_FinishCompressesOnceOrTwice :
    (⟨Chain.iv, List.replicate 55 0, 440⟩ : Stream).tail.length ≤ 55 ∧
    56 ≤ (⟨Chain.iv, List.replicate 56 0, 448⟩ : Stream).tail.length ∧
    (⟨Chain.iv, List.replicate 63 0, 504⟩ : Stream).tail.length ≤ 63 := by decide

theorem test_witness_StreamedPiecesDigestTheWhole :
    (run 0 65).length ≤ Config.bufcap ∧ (run 1 63).length ≤ Config.bufcap :=
  ⟨le_trans (by decide) Config.le_bufcap, le_trans (by decide) Config.le_bufcap⟩

/-- A block, and the first block of line 7: its sixteen words are distinct and none is zero. -/
theorem test_witness_CompressionStepByStep : (run 0 64).length = 64 ∧ 15 < 16 ∧ 79 < 80 ∧
    (blockWords (ascii "ABCDEFGHIJKLMNOPQRSTUVWXYZabcdefghijklmnopqrstuvwxyz0123456789" ++
      [0x80, 0x00])).Nodup ∧
    (0 : Word) ∉ blockWords (ascii "ABCDEFGHIJKLMNOPQRSTUVWXYZabcdefghijklmnopqrstuvwxyz0123456789" ++
      [0x80, 0x00]) := by decide +kernel

theorem test_witness_AlphabetAndDigitValues : val 0x7A = some 57 := by decide

theorem le_length_b58Enc_zeros (n : Nat) : n ≤ (b58Enc (List.replicate n 0x00)).length := by
  have h := leading_replicate_append 0x00 n [] (by simp)
  rw [List.append_nil] at h
  rw [length_b58Enc]
  exact (Nat.le_of_eq h.symm).trans (Nat.le_add_right ..)

/-- A text that fits, one that does not, leading zero bytes, and 749 bytes. -/
theorem test_witness_B58EncResult :
    (b58Enc (block [0x61] []).ibuf).length ≤ Config.bufcap ∧
    Config.bufcap < (b58Enc (block (List.replicate (Config.bufcap + 1) 0x00) []).ibuf).length ∧
    (block [0x00, 0x61] []).ibuf = List.replicate 1 0x00 ++ [0x61] ∧
    (block (List.replicate 749 0xFF) []).ibuf.length ≤ 749 := by
  refine ⟨le_trans (show _ ≤ 128 by decide) Config.le_bufcap, le_length_b58Enc_zeros _, rfl, ?_⟩
  exact List.length_replicate.le

theorem test_witness_B58DecResult : (∀ c ∈ (block (ascii "2g") []).ibuf, c ∈ alphabet) ∧
    (∃ c ∈ (block (ascii "2O") []).ibuf, c ∉ alphabet) ∧
    (∀ c ∈ (block [] []).ibuf, c ∈ alphabet) := by decide

theorem test_witness_Base58EncodeInvertsDecode : ∀ c ∈ ascii "112z", c ∈ alphabet := by decide

theorem test_witness_Base58LengthBounds : b58Dec (ascii "21") = some [0x3A] ∧
    (List.replicate 25 (0 : Byte)).length = 25 ∧ (List.replicate 37 (0xFF : Byte)).length = 37 := by
  decide

/-- 124 bytes fit every BUFCAP with the checksum; 4093 fit none. -/
theorem test_witness_ChkAttachResult :
    (block (List.replicate 124 0) []).ibuf.length + 4 ≤ Config.bufcap ∧
    Config.bufcap < (block (List.replicate 4093 0) []).ibuf.length + 4 := by
  have h1 := Config.le_bufcap
  have h2 := Config.bufcap_le
  simp only [block, List.length_replicate]
  omega

/-- Three bytes; a checksum that is wrong whatever H256 is, and the right one; and the shortest
inputs of the last two. -/
theorem test_witness_ChkVerifyResult :
    (block [1, 2, 3] []).ibuf.length < 4 ∧
    (∃ P C : Bytes, (block (P ++ C) []).ibuf = P ++ C ∧ C.length = 4 ∧ P = [] ∧
      (Config.h256 (Config.h256 P)).take 4 ≠ C) ∧
    (∃ P C : Bytes, (block (P ++ C) []).ibuf = P ++ C ∧ C.length = 4 ∧ P = [] ∧
      (Config.h256 (Config.h256 P)).take 4 = C) := by
  refine ⟨by decide, ?_, [], _, rfl, by simp, rfl, rfl⟩
  by_cases h : (Config.h256 (Config.h256 [])).take 4 = [0, 0, 0, 0]
  · refine ⟨[], [1, 1, 1, 1], rfl, rfl, rfl, ?_⟩
    rw [h]
    decide
  · exact ⟨[], [0, 0, 0, 0], rfl, rfl, rfl, h⟩

theorem test_witness_VerifyUndoesAttach :
    (block (List.replicate 124 0) []).ibuf.length + 4 ≤ Config.bufcap := by
  have h1 := Config.le_bufcap
  simp only [block, List.length_replicate]
  omega

theorem test_witness_Base58CheckRoundTrip :
    (block (run 0 21) []).ibuf.length + 4 ≤ Config.bufcap ∧
    (b58Enc (attach (block (run 0 21) []).ibuf)).length ≤ Config.bufcap := by
  have h1 := Config.le_bufcap
  have h2 := length_b58Enc_le (attach (run 0 21))
  have h3 : (run 0 21).length = 21 := by decide
  rw [length_attach] at h2
  show (run 0 21).length + 4 ≤ _ ∧ (b58Enc (attach (run 0 21))).length ≤ _
  omega

theorem test_witness_KfFormatResult : (block (run 0 64) []).ibuf.length = 64 ∧
    (block (run 0 63) []).ibuf.length ≠ 64 := by decide

theorem test_witness_KfCompressResult : (run 0 32).length = 32 ∧ (run 0 31).length = 31 ∧
    (block ([0x04] ++ run 0 32 ++ run 0 31 ++ [0xD7]) []).ibuf =
      [0x04] ++ run 0 32 ++ run 0 31 ++ [0xD7] ∧
    (block (run 4 64) []).ibuf.length ≠ 65 ∧
    (block (run 2 65) []).ibuf.head? ≠ some 0x04 ∧ (block [] []).ibuf.head? ≠ some 0x04 := by decide

theorem test_witness_PointToCompressedKey : (run 0 32).length = 32 ∧ (run 32 32).length = 32 := by decide

theorem test_witness_DrvAddrResult : (block (run 2 33) []).ibuf.length = 33 ∧
    (block (run 2 32) []).ibuf.length ≠ 33 := by decide

theorem test_witness_DrvWifResult : (block (run 2 32) []).ibuf.length = 32 ∧
    (block (run 2 33) []).ibuf.length ≠ 32 := by decide

theorem test_witness_DrvAddrEqualsPrimitives : (block (run 2 33) []).ibuf.length = 33 := by decide

theorem test_witness_DrvWifEqualsPrimitives : (block (run 2 32) []).ibuf.length = 32 := by decide

/-- The prefix bytes at the ends of each clause's range. -/
theorem test_witness_WifTextLength : (block (run 2 32) []).ibuf.length = 32 ∧
    0x1E ≤ (0x1E : Byte).toNat ∧ 0x1E ≤ (0xFF : Byte).toNat ∧
    (0x01 ≤ (0x01 : Byte).toNat ∧ (0x01 : Byte).toNat ≤ 0x1C) ∧
    (0x01 ≤ (0x1C : Byte).toNat ∧ (0x1C : Byte).toNat ≤ 0x1C) ∧ 0x1E ≤ (0x80 : Byte).toNat := by decide

theorem test_witness_AddressTextLength : (block (run 2 33) []).ibuf.length = 33 ∧
    (0x01 : Byte) ≠ 0x00 := by decide

theorem test_witness_PointToAddress : (run 0 32).length = 32 ∧ (run 32 32).length = 32 := by decide

/-- 108 and 20 bytes fill every BUFCAP's least value exactly; 4096 and 1 fit none. -/
theorem test_witness_XferResult :
    (block (List.replicate 108 0) (run 0 20)).ibuf.length +
      (block (List.replicate 108 0) (run 0 20)).obuf.length ≤ Config.bufcap ∧
    Config.bufcap < (block (List.replicate 4096 0) [1]).ibuf.length +
      (block (List.replicate 4096 0) [1]).obuf.length := by
  have h1 := Config.le_bufcap
  have h2 := Config.bufcap_le
  have h3 : (run 0 20).length = 20 := by decide
  simp only [block, List.length_replicate, h3, List.length_singleton]
  omega

theorem test_witness_ClrerrResult :
    step { driven [cmd .clrerr] [] [] with errf := true } =
      .next { State.reset with host := ⟨[], some .done, .goesOn⟩ } := rfl

theorem test_witness_StepKeepsTheInvariant : (driven [cmd .impWif] [] []).Inv ∧
    step (driven [cmd .impWif] [] []) = .next { State.reset with
      errCode := 5, errf := true, host := ⟨[], some .done, .goesOn⟩ } :=
  ⟨⟨⟨Nat.zero_le _, Nat.zero_le _⟩, by decide, by decide⟩, rfl⟩

theorem test_witness_FailureChangesOnlyCodeAndFlag :
    ∃ t, runCommand 0x00000032 (block [1] [2]) = .next t ∧ t.errCode ≠ 0 :=
  ⟨_, rfl, by decide⟩

theorem test_witness_SuccessKeepsTheStickyFlag :
    (∃ t, exec .iclr { block [1] [2] with errf := true } = .next t ∧ t.errCode = 0 ∧
      Instr.iclr ≠ .clrerr) ∧
    (∃ t, exec .clrerr { block [1] [2] with errf := true } = .next t) :=
  ⟨⟨_, rfl, rfl, by decide⟩, ⟨_, rfl⟩⟩

theorem test_witness_CommandsWriteOnlyTheirOwnState :
    (Instr.extH256 ∉ [Instr.d160Init, .d160Update, .d160Final, .d160Digest] ∧
      ∀ a, Instr.extH256 ≠ .drvAddr a) ∧
    Instr.extH256 ∉ [Instr.xfer, .iclr] ∧
    Instr.xfer ∈ [Instr.d160Init, .d160Update, .impWif, .xfer, .clrerr, .iclr] := by
  refine ⟨⟨by decide, nofun⟩, by decide, by decide⟩

theorem test_witness_ResultsDependOnVisibleInputsOnly :
    (block [1] [2]).stream = ({ block [1] [2] with errf := true } : State).stream ∧
    (block [1] [2]).ibuf = ({ block [1] [2] with errf := true } : State).ibuf ∧
    (Instr.xfer = .xfer → (block [1] [2]).obuf = ({ block [1] [2] with errf := true } : State).obuf) :=
  ⟨rfl, rfl, fun _ => rfl⟩

theorem test_witness_FailedCommandLeavesNoTrace :
    runCommand 0x00000099 (block [1] [2]) = .next { block [1] [2] with errCode := 6, errf := true } ∧
    ({ block [1] [2] with errCode := 6, errf := true } : State).errCode ≠ 0 := ⟨rfl, by decide⟩

theorem test_witness_RegisterReads :
    (driven [.read 4 0x0020] [1] [2]).host.pending = .read 4 0x0020 :: [] ∧
    memRead (driven [.read 4 0x0020] [1] [2]) 4 0x0020 = .ok 0x67452301 ∧
    step (driven [.read 4 0x0020] [1] [2]) = .next { block [1] [2] with
      host := ⟨[], some (.value 0x67452301), .goesOn⟩ } := ⟨rfl, rfl, rfl⟩

/-- Word 0 below OLEN, word 1 at OLEN, word BUFCAP, and a read of word 0 that goes on. -/
theorem test_witness_OutputWindowReads :
    0 < (block [] [0x61]).obuf.length ∧ (block [] [0x61]).obuf.length ≤ 1 ∧
    Memory.wf (block [] [0x61]) ∧ Config.bufcap ≤ Config.bufcap ∧
    (driven [.read 4 0x4000] [] [0x61]).host.pending = .read 4 (0x4000 + 4 * 0) :: [] ∧
    step (driven [.read 4 0x4000] [] [0x61]) = .next { block [] [0x61] with
      host := ⟨[], some (.value 0x61), .goesOn⟩ } := by
  refine ⟨by decide, by decide, ⟨Nat.zero_le _, ?_⟩, le_rfl, rfl, rfl⟩
  exact le_trans (by decide) Config.le_bufcap

theorem test_witness_BusErrorsInExactlyTheseCases :
    busError .width (block [1] [2]) = .next ((block [1] [2]).respond .busError) := rfl

theorem test_witness_BusErrorStep :
    (driven [.read 4 0x0000] [1] [2]).host.pending = .read 4 0x0000 :: [] ∧
    memRead (driven [.read 4 0x0000] [1] [2]) 4 0x0000 = .error .readOfWriteOnly ∧
    (driven [.write 4 0x4000 0] [1] [2]).host.pending = .write 4 0x4000 0 :: [] ∧
    memWritePort (driven [.write 4 0x4000 0] [1] [2]) 4 0x4000 = .error .writeToReadOnly ∧
    (driven [.read 4 0x0000] [1] [2]).host.onBusError = .goesOn ∧
    (⟨[.read 4 0x0000], none, .stops⟩ : HostSide).onBusError = .stops := ⟨rfl, rfl, rfl, rfl, rfl, rfl⟩

/-- A push with room, and one into a full buffer. -/
theorem test_witness_IpushAppendsAByte :
    (driven [.write 4 0x0018 0x41] [] []).host.pending = .write 4 0x0018 0x41 :: [] ∧
    (driven [.write 4 0x0018 0x41] [] []).ibuf.length < Config.bufcap ∧
    (driven [.write 4 0x0018 0x41] (List.replicate Config.bufcap 0) []).ibuf.length = Config.bufcap := by
  refine ⟨rfl, lt_of_lt_of_le (by decide) Config.le_bufcap, ?_⟩
  simp [driven, block]

theorem test_witness_ErrorCodeChangesOnlyByCommandOrReset :
    ∃ t, step (driven [.write 4 0x0000 0x00000000] [] []) = .next t ∧
      t.errCode ≠ (driven [.write 4 0x0000 0x00000000] [] []).errCode := ⟨_, rfl, by decide⟩

theorem test_witness_InputShrinksOnlyByIclrOrReset :
    ∃ t, step (driven [cmd .iclr] [1] []) = .next t ∧ t.ibuf = [] := ⟨_, rfl, rfl⟩

theorem test_witness_EveryRunOfAGoingOnHostEnds : (block [1] [2]).host.onBusError = .goesOn := rfl

theorem test_witness_HostProcedureForOneKey : (run 0 32).length = 32 ∧ (run 32 32).length = 32 ∧
    (⟨0x00, 0x80, true, true, true⟩ : KeyWishes).scrub = true ∧
    (⟨0x00, 0x80, true, true, false⟩ : KeyWishes).scrub = false ∧
    ∃ t, exec .impWif (block [1] [2]) = .next t ∧ t.errCode ≠ 0 :=
  ⟨by decide, by decide, rfl, rfl, _, rfl, by decide⟩

/-- The key 0 is below every curve order. -/
theorem test_witness_HostProcedureIsDutiful : (List.replicate 32 (0x00 : Byte)).length = 32 ∧
    be (List.replicate 32 0x00) < Config.curveOrder ∧ (run 0 32).length = 32 ∧
    Ledger.start.testOwed = false ∧ Ledger.start.streaming = false := by
  refine ⟨by decide, ?_, by decide, by decide, rfl⟩
  have h : be (List.replicate 32 0x00) = 0 := by decide +kernel
  rw [h]
  exact Config.curveOrder_pos

/-- A dutiful run with a D160.DIGEST and its test, after which every clause has its move; the last clause
has D160.UPDATE with a byte in IBUF. -/
theorem test_witness_DutifulHostIsNeverMisled :
    State.reset.Inv ∧ Ledger.start.Agrees .fresh State.reset ∧
    (∃ h d t, DutifulRun Ledger.start State.reset h d t ∧
      h.find? (fun e => asksOutput e.move) ≠ none ∧
      moveAllowed d t (rd (.obufWord 0)) = true ∧
      moveAllowed d t (cmd .d160Digest) = true ∧
      moveAllowed d t (cmd (.drvAddr 0x00)) = true) ∧
    (moveAllowed Ledger.start (block [0x61] []) (cmd .d160Update) = true ∧
      ∃ t, step ((block [0x61] []).setPending [cmd .d160Update]) = .next t ∧
        t.stream ≠ (block [0x61] []).stream) :=
  ⟨⟨Memory.wf_reset, wf_initial, by decide, by decide⟩, ⟨fun _ => rfl, fun _ => rfl, by decide⟩,
    ⟨_, _, _, .move (m := rd .err) (.move (m := cmd .d160Digest) (.refl ..) (by decide) rfl)
      (by decide +kernel) rfl, by decide +kernel, by decide +kernel, by decide +kernel,
      by decide +kernel⟩, by decide, _, rfl, by decide⟩

end Sys2Proof.Tests
end

/-! # Proofs of the state's statements (spec 10_state.md)

First the rules these proofs share: the encoder's round trip, what stands at each register's offset,
what a step can do to the block, and the runs of LOAD and MOVE. Then the statements themselves. -/

namespace Sys2Proof.Machine

variable {s t : State}

/-! ## The command word (R81 to R85) -/

/-- A command's word decodes to the command. -/
theorem decode_encode (i : Instr) : decode (encode i) = .ok i := by
  cases i with
  | drvAddr a => simp [decode, Laws.EncodedFields.fieldsOf_drvAddr, commandOf]
  | drvWif a => simp [decode, Laws.EncodedFields.fieldsOf_drvWif, commandOf]
  | d160Init | d160Update | d160Final | d160Digest | b58Enc | b58Dec | chkAttach | chkVerify
  | kfFormat | kfCompress | impWif | xfer | clrerr | iclr | extH256 => rfl

/-! ## Reads (20_memory.md R52, R53, R55) -/

/-- The address map has every register at its offset; the window has 4096 words. -/
theorem regAt_regOffset {r : Reg} (hr : ∀ i, r = .obufWord i → i < 4096) :
    regAt (regOffset r) = some r := by
  cases r with
  | h i => fin_cases i <;> rfl
  | obufWord i => exact regAt_window (hr i rfl)
  | cmd | status | err | ilen | olen | cap | ipush | dlenLo | dlenHi => rfl

/-- A word read at a register's offset reads the register. -/
theorem memRead_regOffset (s : State) (r : Reg)
    (hr : ∀ i, r = .obufWord i → i < 4096 := by simp) :
    memRead s 4 (regOffset r) = readReg s r := by
  have hacc : accessFault 4 (regOffset r) = none := by
    cases r with
    | h i => fin_cases i <;> rfl
    | obufWord i =>
      have := hr i rfl
      exact accessFault_word (by simp only [regOffset]; omega) (by simp only [regOffset]; omega)
    | cmd | status | err | ilen | olen | cap | ipush | dlenLo | dlenHi => rfl
  rw [memRead, hacc, regAt_regOffset hr]

theorem memRead_window_of_lt {i : Nat} (hi : i < 4096) (h : i < s.obuf.length) :
    memRead s 4 (0x4000 + 4 * i) = .ok ((s.obuf[i]).zeroExtend 32) := by
  simp [memRead_window s hi, h]

theorem memRead_window_of_le {i : Nat} (hi : i < 4096) (h : s.obuf.length ≤ i) :
    memRead s 4 (0x4000 + 4 * i) = .error .beyondOlen := by
  simp [memRead_window s hi, h]

/-- No read past the aperture answers a value (R53 c). -/
theorem memRead_outside {off : Nat} (h4 : off % 4 = 0) (h : 0x8000 ≤ off) :
    memRead s 4 off = .error .outside := by
  simp [memRead, accessFault, h4, h]

/-! ## Reads and pushes as moves: what they leave of the block -/

/-- A move that is a bus error leaves the block as it was (R235). -/
theorem sameBlock_of_busError {c : BusCause} (h : busError c s = .next t) : s.SameBlock t := by
  obtain rfl := busError_next h
  exact ⟨rfl, rfl, rfl, rfl, rfl⟩

theorem hostMove_read_of_ok {width off : Nat} {v : Word} (h : memRead s width off = .ok v) :
    hostMove (.read width off) s = .next (s.respond (.value v)) := by
  simp [hostMove, hostRead, h]

theorem hostMove_read_of_error {width off : Nat} {c : BusCause}
    (h : memRead s width off = .error c) : hostMove (.read width off) s = busError c s := by
  simp [hostMove, hostRead, h]

theorem hostMove_ipush_of_room (h : s.ibuf.length < Config.bufcap) (v : Word) :
    hostMove (.write 4 0x0018 v) s = .next ((s.push v).respond .done) := by
  simp [hostMove, hostWrite, memWritePort_ipush_of_room h]

theorem hostMove_ipush_of_full (h : Config.bufcap ≤ s.ibuf.length) (v : Word) :
    hostMove (.write 4 0x0018 v) s = busError .inputFull s := by
  simp [hostMove, hostWrite, memWritePort_ipush_of_full h]

/-- A read has no side effect on the block, whether it answers a value or is a bus error (R55). -/
theorem sameBlock_of_hostMove_read {width off : Nat} (h : hostMove (.read width off) s = .next t) :
    s.SameBlock t := by
  cases hm : memRead s width off with
  | ok v =>
    rw [hostMove_read_of_ok hm] at h
    obtain rfl := Host.Outcome.next.inj h
    exact ⟨rfl, rfl, rfl, rfl, rfl⟩
  | error c =>
    rw [hostMove_read_of_error hm] at h
    exact sameBlock_of_busError h

theorem sameBlock_of_step_read {width off : Nat} {rest : List HostMove}
    (hp : s.host.pending = .read width off :: rest) (h : step s = .next t) : s.SameBlock t := by
  rw [step_of_pending hp] at h
  exact sameBlock_of_hostMove_read (s := s.setPending rest) h

/-! ## The invariant, along a command, a move and a step -/

theorem errorWf_raiseFail (s : State) (k : ErrKind) : (s.raiseFail k).errorWf :=
  ⟨k.code_le, fun _ => rfl⟩

theorem errorWf_of_errCode_zero (h : s.errCode = 0) : s.errorWf := by simp [State.errorWf, h]

/-- A successful command keeps the invariant, and its code 0 is legal whatever the flag. -/
theorem Succeeded.inv {i : Instr} (h : Succeeded i s t) (hs : s.Inv) : t.Inv := by
  obtain ⟨hmem, hstream, -⟩ := hs
  exact ⟨h.memory hmem, h.streamWf hstream, errorWf_of_errCode_zero h.code⟩

theorem inv_raiseFail (hs : s.Inv) (k : ErrKind) : (s.raiseFail k).Inv := by
  obtain ⟨hmem, hstream, -⟩ := hs
  exact ⟨Memory.wf_raiseFail hmem k, hstream, errorWf_raiseFail s k⟩

theorem inv_respond (hs : s.Inv) (r : Response) : (s.respond r).Inv := hs

theorem inv_setPending (hs : s.Inv) (moves : List HostMove) : (s.setPending moves).Inv := hs

theorem inv_push (hs : s.Inv) (hroom : s.ibuf.length < Config.bufcap) (v : Word) :
    (s.push v).Inv := by
  obtain ⟨hmem, hstream, herr⟩ := hs
  exact ⟨Memory.wf_push hmem hroom v, hstream, herr⟩

theorem inv_reset : State.reset.Inv :=
  ⟨Memory.wf_reset, wf_initial, errorWf_of_errCode_zero rfl⟩

/-- A write of CMD keeps the invariant, whatever word is written. -/
theorem inv_runCommand {v : Word} (hs : s.Inv) (h : runCommand v s = .next t) : t.Inv := by
  rcases runCommand_cases v s with ⟨k, hk⟩ | ⟨i, u, -, hu, hsucc⟩
  · obtain rfl := Host.Outcome.next.inj (hk ▸ h)
    exact inv_raiseFail hs k
  · obtain rfl := Host.Outcome.next.inj (hu ▸ h)
    exact hsucc.inv hs

/-- Every move of the host keeps the invariant. -/
theorem inv_hostMove {m : HostMove} (hs : s.Inv) (h : hostMove m s = .next t) : t.Inv := by
  rcases hostMove_cases m s with
    ⟨_, _, v, -, -, hk⟩ | ⟨c, hk⟩ | ⟨v, -, hk⟩ | ⟨v, -, hroom, hk⟩ | ⟨-, hk⟩ <;> rw [hk] at h
  · obtain rfl := Host.Outcome.next.inj h
    exact inv_respond hs _
  · obtain rfl := busError_next h
    exact inv_respond hs _
  · exact inv_runCommand (inv_respond hs _) h
  · obtain rfl := Host.Outcome.next.inj h
    exact inv_respond (inv_push hs hroom v) _
  · obtain rfl := Host.Outcome.next.inj h
    exact inv_reset

/-- A move that changes ERR is a write of CMD or the reset (R28). -/
theorem hostMove_of_errCode_ne {m : HostMove} (h : hostMove m s = .next t)
    (hne : t.errCode ≠ s.errCode) : m = .reset ∨ ∃ v, m = .write 4 0x0000 v := by
  rcases hostMove_cases m s with
    ⟨_, _, v, -, -, hk⟩ | ⟨c, hk⟩ | ⟨v, hm, -⟩ | ⟨v, -, -, hk⟩ | ⟨hm, -⟩
  · obtain rfl := Host.Outcome.next.inj (hk ▸ h)
    exact absurd rfl hne
  · obtain rfl := busError_next (hk ▸ h)
    exact absurd rfl hne
  · exact .inr ⟨v, hm⟩
  · obtain rfl := Host.Outcome.next.inj (hk ▸ h)
    exact absurd rfl hne
  · exact .inl hm

/-! ## Runs of one command, of LOAD and of MOVE (R88, R89) -/

theorem runMoves_singleton {i : Instr} (h : exec i s = .next t) :
    runMoves [cmd i] s = .next ((t.respond .done).setPending []) := by
  rw [runMoves_cmd (decode_encode i) h, runMoves_nil]

/-- LOAD leaves exactly the loaded bytes in IBUF, with code 0. -/
theorem runMoves_load (s : State) {B : Bytes} (hB : B.length ≤ Config.bufcap) :
    ∃ t, runMoves (load B) s = .next t ∧ t.ibuf = B ∧ t.stream = s.stream ∧ t.obuf = s.obuf ∧
      t.errCode = 0 ∧ t.errf = s.errf := by
  obtain ⟨t, ht, hibuf, hstream, hobuf, hcode, hflag, -⟩ :=
    runMoves_pushb (s := (s.setInput []).succeed.respond .done) B (by simpa using hB)
  refine ⟨t, ?_, hibuf, hstream, hobuf, hcode, hflag⟩
  rw [load, runMoves_cmd (decode_encode .iclr) rfl, ht]

/-- MOVE makes the output the input, and keeps it as the output. -/
theorem runMoves_moveOut (s : State) (h : s.obuf.length ≤ Config.bufcap) :
    ∃ t, runMoves moveOut s = .next t ∧ t.ibuf = s.obuf ∧ t.stream = s.stream ∧ t.obuf = s.obuf ∧
      t.errCode = 0 ∧ t.errf = s.errf := by
  have hxfer := execXfer_of_fits (s := (s.setInput []).succeed.respond .done) (by simpa using h)
  rw [moveOut, runMoves_cmd (decode_encode .iclr) rfl, runMoves_singleton (i := .xfer) hxfer]
  exact ⟨_, rfl, rfl, rfl, rfl, rfl, rfl⟩

/-! ## The parity marker (R41, R172) -/

/-- The low bit of a byte string's integer is that of its last byte (R12). -/
theorem be_append_singleton_mod_two (B : Bytes) (b : Byte) : be (B ++ [b]) % 2 = b.toNat % 2 := by
  rw [be_append_singleton]
  omega

theorem and_one_eq_zero_iff (b : Byte) : b &&& 0x01 = 0 ↔ b.toNat % 2 = 0 := by
  rw [← BitVec.toNat_inj, BitVec.toNat_and]
  simp [Nat.and_one_is_mod]

/-- Byte 64 of a formatted point is Y's last byte, so its marker tells the parity of the integer Y. -/
theorem parityMarker_formatKey {X Y : Bytes} (hX : X.length = 32) (hY : Y.length = 32) :
    parityMarker (formatKey (X ++ Y)) = if be Y % 2 = 0 then 0x02 else 0x03 := by
  obtain rfl | ⟨Z, b, rfl⟩ := List.eq_nil_or_concat' Y
  · cases hY
  have hZ : Z.length = 31 := by simpa using hY
  have hlast : (formatKey (X ++ (Z ++ [b]))).getD 64 0 = b := by
    simp [formatKey, List.getD, hX, hZ]
  simp only [parityMarker, hlast, and_one_eq_zero_iff, be_append_singleton_mod_two]

/-- The compressed form of a formatted point is the marker of Y's parity and X (R171, R172). -/
theorem compressKey_formatKey {X Y : Bytes} (hX : X.length = 32) (hY : Y.length = 32) :
    compressKey (formatKey (X ++ Y)) = (if be Y % 2 = 0 then 0x02 else 0x03) :: X := by
  rw [compressKey, parityMarker_formatKey hX hY]
  simp [formatKey, hX]

/-! ## The statements -/

/-- Settles O30, command by command: LOAD, KF.FORMAT, MOVE and KF.COMPRESS each succeed, and the last
one reads the formatted key whose marker `compressKey_formatKey` names. -/
theorem pointToCompressedKey : Obligations.PointToCompressedKey := by
  intro s X Y hX hY
  have hcap := Config.le_bufcap
  have hlen : (X ++ Y).length = 64 := by simp [hX, hY]
  obtain ⟨a, hload, haIn, haStream, -, -, haFlag⟩ := runMoves_load s (B := X ++ Y) (by omega)
  have hformat := runMoves_singleton (i := .kfFormat) (execKfFormat_of_length (haIn ▸ hlen))
  obtain ⟨c, hmove, hcOut, hcStream, -, -, hcFlag⟩ := runMoves_moveOut
    (((a.deliver (formatKey a.ibuf)).respond .done).setPending []) (by simp [haIn, hX, hY]; omega)
  have hcIn : c.ibuf = formatKey (X ++ Y) := by simpa [haIn] using hcOut
  have hcompress := runMoves_singleton (i := .kfCompress)
    (execKfCompress_of_format (s := c) (by simp [hcIn, hX, hY]) (by rw [hcIn]; rfl))
  rw [List.append_assoc, List.append_assoc, runMoves_append hload, runMoves_append hformat,
    runMoves_append hmove]
  refine ⟨_, hcompress, ?_, hcIn, rfl, hcFlag.trans haFlag, hcStream.trans haStream⟩
  simpa [hcIn] using compressKey_formatKey hX hY

/-- Settles O43: a step is one move, and every move keeps the invariant (`inv_hostMove`). -/
theorem stepKeepsTheInvariant : Obligations.StepKeepsTheInvariant := by
  intro s t hs h
  cases hp : s.host.pending with
  | nil =>
    obtain rfl := Host.Outcome.next.inj (step_of_idle hp ▸ h)
    exact hs
  | cons m rest =>
    rw [step_of_pending hp] at h
    exact inv_hostMove (inv_setPending hs rest) h

/-- Settles O51: below OLEN, from OLEN on, and past the window's 4096 words. -/
theorem outputWindowReads : Obligations.OutputWindowReads := by
  intro s
  refine ⟨fun i hi => ⟨memRead_window_of_lt hi, memRead_window_of_le hi,
    fun _ _ hp => sameBlock_of_step_read hp⟩, fun hwf i hi => ?_⟩
  have hle : s.obuf.length ≤ i := hwf.2.trans hi
  refine ⟨hle, ?_⟩
  by_cases hwin : i < 4096
  · exact ⟨_, memRead_window_of_le hwin hle⟩
  · exact ⟨_, memRead_outside (by omega) (by omega)⟩

/-- Settles O55: an idle step changes nothing, and a move that changes ERR is one of the two. -/
theorem errorCodeChangesOnlyByCommandOrReset :
    Obligations.ErrorCodeChangesOnlyByCommandOrReset := by
  intro s t h hne
  cases hp : s.host.pending with
  | nil =>
    obtain rfl := Host.Outcome.next.inj (step_of_idle hp ▸ h)
    exact absurd rfl hne
  | cons m rest =>
    rw [step_of_pending hp] at h
    rcases hostMove_of_errCode_ne h hne with rfl | ⟨v, rfl⟩
    · exact ⟨rest, .inl rfl⟩
    · exact ⟨rest, .inr ⟨v, rfl⟩⟩

/-- Settles O1: the fields by their values, the window empty, and the stream commands succeeding. -/
theorem resetStateValues : Obligations.ResetStateValues :=
  ⟨rfl, rfl, rfl, rfl, rfl, rfl, rfl, memRead_regOffset _ .cap,
    fun _ hi => memRead_window_of_le hi (Nat.zero_le _), rfl, ⟨_, rfl, rfl⟩, ⟨_, rfl, rfl⟩⟩

/-- Settles O44: `inv_reset`, which a reset move rests on too. -/
theorem resetMeetsTheInvariant : Obligations.ResetMeetsTheInvariant := inv_reset

/-- Settles O50: each offset is a register's (`memRead_regOffset`), and a read leaves the block. -/
theorem registerReads : Obligations.RegisterReads := by
  refine ⟨fun s => ?_, fun s width off rest hp => ⟨fun t => sameBlock_of_step_read hp, fun v hv => ?_⟩⟩
  · exact ⟨memRead_regOffset s .status, memRead_regOffset s .err, memRead_regOffset s .ilen,
      memRead_regOffset s .olen, memRead_regOffset s .cap, memRead_regOffset s (.h 0),
      memRead_regOffset s (.h 1), memRead_regOffset s (.h 2), memRead_regOffset s (.h 3),
      memRead_regOffset s (.h 4), memRead_regOffset s .dlenLo, memRead_regOffset s .dlenHi⟩
  · have hv' : memRead (s.setPending rest) width off = .ok v := hv
    rw [step_of_pending hp, hostMove_read_of_ok hv']
    rfl

/-- Settles O54: the two outcomes of the write by the room there is, and the read. -/
theorem ipushAppendsAByte : Obligations.IpushAppendsAByte := by
  refine ⟨fun s v rest hp => ?_, fun s => memRead_regOffset s .ipush⟩
  rw [step_of_pending hp]
  refine ⟨fun hroom => ?_, fun hfull => ⟨memWritePort_ipush_of_full hfull.ge, fun t ht => ?_⟩⟩
  · rw [hostMove_ipush_of_room (s := s.setPending rest) hroom]
    rfl
  · rw [hostMove_ipush_of_full (s := s.setPending rest) hfull.ge] at ht
    exact sameBlock_of_busError (s := s.setPending rest) ht

end Sys2Proof.Machine

/-! # Proofs of the memory's statement (spec 20_memory.md)

Both ports ask in the same three layers: R53 (a) to (c) of the transaction, the address map, and then the
register alone. So the two lists of bus errors differ in the register's part only. -/

namespace Sys2Proof.Machine

variable {s : State} {width off : Nat}

/-! ## The two layers both ports share (R52, R53 a to d) -/

theorem accessFault_eq_none_iff :
    accessFault width off = none ↔ width = 4 ∧ off % 4 = 0 ∧ off < 0x8000 := by
  unfold accessFault
  split_ifs <;> simp <;> omega

/-- What the address map has at an offset is a register of that offset. -/
theorem eq_regOffset_of_regAt {r : Reg} (h : regAt off = some r) : off = regOffset r := by
  unfold regAt at h
  split at h
  case h_15 => -- the window
    split_ifs at h with hwin
    obtain rfl := Option.some.inj h
    simp only [regOffset]
    omega
  all_goals
    obtain rfl := Option.some.inj h
    rfl

/-- An aligned offset of the aperture names nothing exactly where it is reserved (R40). -/
theorem regAt_eq_none_iff (h4 : off % 4 = 0) (hlt : off < 0x8000) :
    regAt off = none ↔ off = 0x001C ∨ (0x003C ≤ off ∧ off < 0x4000) := by
  unfold regAt
  split
  case h_15 => -- the window and what names nothing
    simp only [ite_eq_right_iff, reduceCtorEq, imp_false] at *
    omega
  all_goals simp

/-- Where a port fails at a register `r` exactly if `P` holds of its offset, its transactions fail in
the cases (a) to (d) of R53 and where `P` holds. -/
theorem busError_layers_iff {E : Reg → Prop} {P : Nat → Prop} (hE : ∀ r, E r ↔ P (regOffset r)) :
    (accessFault width off ≠ none ∨ regAt off = none ∨ ∃ r, regAt off = some r ∧ E r) ↔
      width ≠ 4 ∨ off % 4 ≠ 0 ∨ 0x8000 ≤ off ∨
      (off = 0x001C ∨ (0x003C ≤ off ∧ off < 0x4000)) ∨ P off := by
  by_cases hacc : width = 4 ∧ off % 4 = 0 ∧ off < 0x8000
  · have hnone := accessFault_eq_none_iff.mpr hacc
    obtain ⟨rfl, h4, hlt⟩ := hacc
    rw [← regAt_eq_none_iff h4 hlt]
    cases hr : regAt off with
    | none => simp
    | some r => simp [hnone, h4, Nat.not_le.mpr hlt, hE, ← eq_regOffset_of_regAt hr]
  · have hfault : width ≠ 4 ∨ off % 4 ≠ 0 ∨ 0x8000 ≤ off := by omega
    exact iff_of_true (.inl (mt accessFault_eq_none_iff.mp hacc))
      (hfault.imp_right (.imp_right .inl))

/-! ## Reads (R53 e, g) -/

theorem memRead_error_iff_layers :
    (∃ c, memRead s width off = .error c) ↔
      accessFault width off ≠ none ∨ regAt off = none ∨
        ∃ r, regAt off = some r ∧ ∃ c, readReg s r = .error c := by
  unfold memRead
  cases accessFault width off with
  | some c => simp
  | none => cases regAt off <;> simp

/-- Only the two write-only ports and the window from OLEN on answer no value. -/
theorem readReg_error_iff (r : Reg) :
    (∃ c, readReg s r = .error c) ↔
      (regOffset r = 0x0000 ∨ regOffset r = 0x0018) ∨
      (0x4000 ≤ regOffset r ∧ s.obuf.length ≤ (regOffset r - 0x4000) / 4) := by
  cases r with
  | obufWord i =>
    have hport : 0x4000 + 4 * i ≠ 0x0018 := by omega
    rcases Nat.lt_or_ge i s.obuf.length with hlt | hle
    · simp [readReg, regOffset, hport, hlt]
    · simp [readReg, regOffset, hle]
  | h i => fin_cases i <;> simp [readReg, regOffset]
  | cmd | status | err | ilen | olen | cap | ipush | dlenLo | dlenHi => simp [readReg, regOffset]

/-! ## Writes (R53 f, h) -/

theorem memWritePort_error_iff_layers :
    (∃ c, memWritePort s width off = .error c) ↔
      accessFault width off ≠ none ∨ regAt off = none ∨
        ∃ r, regAt off = some r ∧ ∃ c, writePort s r = .error c := by
  unfold memWritePort
  cases accessFault width off with
  | some c => simp
  | none => cases regAt off <;> simp

/-- Every register but CMD refuses a write, IPUSH only when it is full. -/
theorem writePort_error_iff (r : Reg) :
    (∃ c, writePort s r = .error c) ↔
      (regOffset r ∈ [0x0004, 0x0008, 0x000C, 0x0010, 0x0014, 0x0020, 0x0024, 0x0028, 0x002C,
        0x0030, 0x0034, 0x0038] ∨ 0x4000 ≤ regOffset r) ∨
      (regOffset r = 0x0018 ∧ Config.bufcap ≤ s.ibuf.length) := by
  cases r with
  | ipush =>
    by_cases hroom : s.ibuf.length < Config.bufcap
    · simp [writePort, regOffset, hroom]
    · simp [writePort, regOffset, hroom, Nat.not_lt.mp hroom]
  | h i => fin_cases i <;> simp [writePort, regOffset]
  | obufWord i => simp [writePort, regOffset]
  | cmd | status | err | ilen | olen | cap | dlenLo | dlenHi => simp [writePort, regOffset]

/-! ## The statement -/

/-- Settles O52: the shared layers with the register's part of each port, a write of CMD, and the
answer of a bus error that goes on (R235). -/
theorem busErrorsInExactlyTheseCases : Obligations.BusErrorsInExactlyTheseCases := by
  intro s width off
  refine ⟨?_, ?_, memWritePort_cmd s, fun c t h => ⟨sameBlock_of_busError h, ?_⟩⟩
  · rw [memRead_error_iff_layers]
    apply busError_layers_iff
    exact readReg_error_iff
  · rw [memWritePort_error_iff_layers]
    apply busError_layers_iff
    exact writePort_error_iff
  · rw [busError_next h]
    rfl

end Sys2Proof.Machine

/-! # Proofs of the command word's statements (spec 30_encoding.md)

The decoder is read through the three fields of a word (R81): a word is legal exactly when its fields are
those of a command, and fields determine the word. Decoding, encoding, the masks of R84 and the checks of
R83 are then facts about fields. The later parts are about commands and runs of them (R86 to R89). -/

namespace Sys2Proof.Machine

variable {s t : State} {v w : Word} {i : Instr} {opc arg : Byte}

/-! ## Fields (R81) -/

theorem fieldsOf_inj : fieldsOf v = fieldsOf w ↔ v = w := by
  refine ⟨fun h => BitVec.eq_of_toNat_eq ?_, congrArg fieldsOf⟩
  have hrsv := congrArg (fun f => f.rsv.toNat) h
  have harg := congrArg (fun f => f.arg.toNat) h
  have hopc := congrArg (fun f => f.opc.toNat) h
  simp only [fieldsOf, BitVec.extractLsb'_toNat, Nat.shiftRight_eq_div_pow] at hrsv harg hopc
  omega

theorem fieldsOf_encode (i : Instr) : fieldsOf (encode i) = i.fields := by
  cases i with
  | drvAddr a => exact Laws.EncodedFields.fieldsOf_drvAddr a
  | drvWif a => exact Laws.EncodedFields.fieldsOf_drvWif a
  | d160Init | d160Update | d160Final | d160Digest | b58Enc | b58Dec | chkAttach | chkVerify
  | kfFormat | kfCompress | impWif | xfer | clrerr | iclr | extH256 => rfl

theorem opc_fields_mem (i : Instr) : i.fields.opc ∈ assignedOpcodes := by
  cases i <;> simp [Instr.fields, assignedOpcodes]

/-- The mask of DRV.ADDR and DRV.WIF (R84) takes ARG away and leaves the other two fields. -/
theorem fieldsOf_and_argMask (v : Word) :
    fieldsOf (v &&& 0xFFFF00FF) = { fieldsOf v with arg := 0 } := by
  simp only [fieldsOf, BitVec.extractLsb'_and, Fields.mk.injEq]
  exact ⟨BitVec.and_allOnes, BitVec.and_zero, BitVec.and_allOnes⟩

/-! ## The opcode map (R84) -/

/-- An assigned opcode has a command, and takes ARG only where it is 0x30 or 0x31. -/
theorem exists_commandOf (h : opc ∈ assignedOpcodes) (arg : Byte) :
    ∃ i, commandOf opc arg = some (i, opc == 0x30 || opc == 0x31) := by
  simp only [assignedOpcodes, List.mem_cons, List.not_mem_nil, or_false] at h
  rcases h with rfl | rfl | rfl | rfl | rfl | rfl | rfl | rfl | rfl | rfl | rfl | rfl | rfl | rfl |
    rfl | rfl | rfl <;> exact ⟨_, rfl⟩

/-- The command the map names has the opcode it was found by, and ARG where it takes one. -/
theorem fields_of_commandOf {takesArg : Bool} (h : commandOf opc arg = some (i, takesArg)) :
    i.fields = ⟨0, if takesArg then arg else 0, opc⟩ := by
  unfold commandOf at h
  split at h
  case h_18 => cases h
  all_goals
    rename_i hopc
    have hlit := BitVec.ofNat_toNat 8 opc
    rw [hopc, BitVec.setWidth_eq] at hlit
    subst hlit
    cases h
    rfl

theorem commandOf_eq_none (h : opc ∉ assignedOpcodes) (arg : Byte) : commandOf opc arg = none := by
  cases hc : commandOf opc arg with
  | none => rfl
  | some p =>
    have hmem := opc_fields_mem p.1
    rw [fields_of_commandOf hc] at hmem
    exact absurd hmem h

/-! ## The decoder (R83, R85) -/

theorem decode_of_reserved (h : (fieldsOf v).rsv ≠ 0) : decode v = .error .reservedBits := by
  rw [decode, if_pos h]

theorem decode_of_unassigned (hr : (fieldsOf v).rsv = 0)
    (h : (fieldsOf v).opc ∉ assignedOpcodes) : decode v = .error .unassignedOpcode := by
  rw [decode, if_neg (not_not.mpr hr), commandOf_eq_none h]

/-- With the first two checks passed, the third decides. -/
theorem decode_of_assigned (hr : (fieldsOf v).rsv = 0) (h : (fieldsOf v).opc ∈ assignedOpcodes) :
    ∃ i, decode v =
      if (fieldsOf v).opc = 0x30 ∨ (fieldsOf v).opc = 0x31 ∨ (fieldsOf v).arg = 0 then .ok i
      else .error .argNotZero := by
  obtain ⟨i, hi⟩ := exists_commandOf h (fieldsOf v).arg
  exact ⟨i, by simp [decode, hr, hi, or_assoc]⟩

/-- A legal word has the fields of its command. -/
theorem fieldsOf_of_decode (h : decode v = .ok i) : fieldsOf v = i.fields := by
  simp only [decode] at h
  split_ifs at h with hr
  split at h
  · cases h
  · rename_i j takesArg hc
    split_ifs at h with ha
    obtain rfl := Except.ok.inj h
    have harg : (if takesArg then (fieldsOf v).arg else 0) = (fieldsOf v).arg :=
      ite_eq_left_iff.mpr fun hno => (ha.resolve_left hno).symm
    rw [fields_of_commandOf hc, harg, ← not_not.mp hr]

theorem decode_eq_ok_iff_fields : decode v = .ok i ↔ fieldsOf v = i.fields := by
  refine ⟨fieldsOf_of_decode, fun h => ?_⟩
  rw [← fieldsOf_encode, fieldsOf_inj] at h
  rw [h, decode_encode]

/-- A word is legal for a command exactly when it is the command's word. -/
theorem decode_eq_ok_iff : decode v = .ok i ↔ v = encode i := by
  rw [decode_eq_ok_iff_fields, ← fieldsOf_encode, fieldsOf_inj]

/-- A mask of all bits asks for the whole word. -/
theorem decode_eq_ok_iff_fullMask : decode v = .ok i ↔ v &&& 0xFFFFFFFF = encode i := by
  have hmask : v &&& 0xFFFFFFFF = v := BitVec.and_allOnes
  rw [hmask, decode_eq_ok_iff]

/-- The mask without ARG asks for the opcode; ARG is then whatever stands in its bits. -/
theorem decode_eq_ok_iff_argMask {a : Byte} (hi : i.fields = ⟨0, a, opc⟩)
    (hw : fieldsOf w = ⟨0, 0, opc⟩) :
    decode v = .ok i ↔ v &&& 0xFFFF00FF = w ∧ a = v.extractLsb' 8 8 := by
  rw [decode_eq_ok_iff_fields, hi, ← fieldsOf_inj, fieldsOf_and_argMask, hw]
  simp only [Fields.mk.injEq, true_and, fieldsOf]
  tauto

/-- Settles O5: the encoder's round trip, and that only a command's own word decodes to it. -/
theorem decodeAndEncodeAgree : Obligations.DecodeAndEncodeAgree := by
  refine ⟨decode_encode, fun v i h => (decode_eq_ok_iff.mp h).symm, fun i => ?_⟩
  rw [decodeTableWord, if_pos ⟨le_rfl, (encode i).isLt⟩, BitVec.ofNat_toNat, BitVec.setWidth_eq,
    decode_encode]
  rfl

/-- Settles O4: each row by the mask it has. -/
theorem legalWordsAreTheOpcodeMap : Obligations.LegalWordsAreTheOpcodeMap := by
  intro v
  exact ⟨decode_eq_ok_iff_fullMask, decode_eq_ok_iff_fullMask, decode_eq_ok_iff_fullMask,
    decode_eq_ok_iff_fullMask, decode_eq_ok_iff_fullMask, decode_eq_ok_iff_fullMask,
    decode_eq_ok_iff_fullMask, decode_eq_ok_iff_fullMask, decode_eq_ok_iff_fullMask,
    decode_eq_ok_iff_fullMask, fun _ => decode_eq_ok_iff_argMask rfl rfl,
    fun _ => decode_eq_ok_iff_argMask rfl rfl, decode_eq_ok_iff_fullMask,
    decode_eq_ok_iff_fullMask, decode_eq_ok_iff_fullMask, decode_eq_ok_iff_fullMask,
    decode_eq_ok_iff_fullMask⟩

/-- Settles O3: the legal words are their commands' words; each illegal one fails its own check. -/
theorem decodeOfTableWords : Obligations.DecodeOfTableWords :=
  ⟨decode_encode .d160Init, decode_encode .d160Digest, decode_encode .chkVerify,
    decode_encode .kfCompress, decode_encode (.drvAddr 0xFF), decode_encode (.drvWif 0x80),
    decode_encode .clrerr, decode_encode .extH256,
    decode_of_unassigned rfl (by decide), rfl, decode_of_reserved (by decide)⟩

/-! ## A write of CMD (R80, R83) -/

theorem runCommand_of_ok (h : decode v = .ok i) : runCommand v s = exec i s := by
  simp [runCommand, h]

theorem runCommand_of_error {e : DecodeError} (h : decode v = .error e) :
    runCommand v s = .next (s.raiseFail .illegalCommand) := by
  simp [runCommand, h]

theorem hostMove_cmd (v : Word) (s : State) :
    hostMove (.write 4 0x0000 v) s = runCommand v (s.respond .done) := by
  simp [hostMove, hostWrite, memWritePort_cmd]

/-- Settles O6: the decoder's cases in the order of the checks, and the one effect of a failure. -/
theorem illegalWordsFailInOrder : Obligations.IllegalWordsFailInOrder := by
  intro v
  refine ⟨decode_of_reserved, decode_of_unassigned, fun hr hopc h30 h31 harg => ?_,
    fun hr hopc hwf => ?_, fun e s h => runCommand_of_error h,
    ⟨_, decode_of_unassigned rfl (by decide)⟩⟩
  · obtain ⟨i, hi⟩ := decode_of_assigned hr hopc
    exact hi.trans (if_neg (not_or.mpr ⟨h30, not_or.mpr ⟨h31, harg⟩⟩))
  · obtain ⟨i, hi⟩ := decode_of_assigned hr hopc
    exact ⟨i, hi.trans (if_pos hwf)⟩

/-- Settles O7: the step's one move is a write of CMD, which runs the decoded command. -/
theorem stepRunsTheDecodedCommand : Obligations.StepRunsTheDecodedCommand := by
  refine ⟨fun s v i rest hp hd => ?_, fun s => step_of_idle⟩
  rw [step_of_pending hp, hostMove_cmd, runCommand_of_ok hd]
  rfl

/-! ## Which command writes what (R86) -/

theorem writesStream_eq_false (h : i ∉ [.d160Init, .d160Update, .d160Final, .d160Digest])
    (ha : ∀ a, i ≠ .drvAddr a) : writesStream i = false := by
  cases i <;> simp_all [writesStream]

theorem writesIn_eq_false (h : i ∉ [.xfer, .iclr]) : writesIn i = false := by
  cases i <;> simp_all [writesIn]

theorem writesOut_eq_false
    (h : i ∈ [.d160Init, .d160Update, .impWif, .xfer, .clrerr, .iclr]) : writesOut i = false := by
  cases i <;> simp_all [writesOut]

/-- The output window shows OBUF and nothing else (R39). -/
theorem memRead_window_congr (h : t.obuf = s.obuf) {k : Nat} (hk : k < 4096) :
    memRead t 4 (0x4000 + 4 * k) = memRead s 4 (0x4000 + 4 * k) := by
  rw [memRead_window t hk, memRead_window s hk, h]

/-- Settles O47: a failed command writes none of these, and a successful one only what it may. -/
theorem commandsWriteOnlyTheirOwnState : Obligations.CommandsWriteOnlyTheirOwnState := by
  intro i s
  rcases exec_cases i s with ⟨k, hk⟩ | ⟨t, ht, hs⟩
  · exact ⟨_, hk, fun _ _ => rfl, fun _ => rfl,
      fun _ => ⟨rfl, fun _ => memRead_window_congr (s.raiseFail_obuf k)⟩, rfl⟩
  · refine ⟨t, ht, fun h ha => hs.stream (writesStream_eq_false h ha),
      fun h => hs.input (writesIn_eq_false h), fun h => ?_, hs.host⟩
    have hout := hs.output (writesOut_eq_false h)
    exact ⟨congrArg List.length hout, fun k => memRead_window_congr hout⟩

/-! ## Every run ends (R87, R207) -/

/-- A move can stop only at a bus error, and a host that goes on does not stop there. -/
theorem exists_hostMove_next (m : HostMove) (h : s.host.onBusError = .goesOn) :
    ∃ t, hostMove m s = .next t := by
  rcases hostMove_cases m s with
    ⟨_, _, v, -, -, hk⟩ | ⟨c, hk⟩ | ⟨v, -, hk⟩ | ⟨v, -, -, hk⟩ | ⟨-, hk⟩ <;> rw [hk]
  · exact ⟨_, rfl⟩
  · exact ⟨_, busError_of_goesOn h c⟩
  · rcases runCommand_cases v (s.respond .done) with ⟨k, hr⟩ | ⟨i, t, -, hr, -⟩
    · exact ⟨_, hr⟩
    · exact ⟨t, hr⟩
  · exact ⟨_, rfl⟩
  · exact ⟨_, rfl⟩

/-- Settles O57, by induction on the moves: each one answers a state whose host still goes on. -/
theorem everyRunOfAGoingOnHostEnds : Obligations.EveryRunOfAGoingOnHostEnds := by
  intro moves
  induction moves with
  | nil => exact fun s _ => ⟨_, rfl⟩
  | cons m rest ih =>
    intro s hs
    obtain ⟨t, ht⟩ := exists_hostMove_next (s := s.setPending rest) m hs
    obtain ⟨u, hu⟩ := ih t ((hostMove_host ht).2.trans hs)
    exact ⟨u, (runMoves_cons ht).trans hu⟩

/-! ## The base-58-check round trip (R89, R153, R154, R158) -/

/-- The zero-symbols stand for the leading zero bytes and the digits for the integer of the rest, so
decoding an encoding gives the bytes back (R154 a). -/
theorem b58Dec_b58Enc (B : Bytes) : b58Dec (b58Enc B) = some B := by
  have hsplit := leading_split 0 B
  have hrest := head?_dropWhile_ne 0 B
  have hdigits : ∀ d ∈ digitsOf 58 (be B), d < 58 := fun d => lt_of_mem_digitsOf (by decide)
  have hleading : leading zeroSymbol (b58Enc B) = leading 0 B :=
    leading_replicate_append zeroSymbol _ _
      (map_sym_head?_ne hdigits (head?_digitsOf_ne_zero (by decide) _))
  have htext : b58Enc B = (List.replicate (leading 0 B) 0 ++ digitsOf 58 (be B)).map sym := by
    rw [List.map_append, List.map_replicate]
    rfl
  have hvalue : decodeFrom 0 (b58Enc B) = some (be B) := by
    rw [htext, decodeFrom_map_sym]
    · simp [Nat.ofDigits_append, Nat.ofDigits_replicate_zero, digitsOf_eq, Nat.ofDigits_digits]
    · intro d hd
      rcases List.mem_append.mp hd with hd | hd
      · simp [(List.mem_replicate.mp hd).2]
      · exact hdigits d hd
  have hbytes : minBE (be B) = B.dropWhile (· == 0) := by
    have hbe : be B = be (B.dropWhile (· == 0)) :=
      (congrArg be hsplit).trans (be_replicate_zero_append _ _)
    rw [hbe, minBE_be _ hrest]
  simp only [b58Dec, hvalue, hleading, hbytes]
  exact congrArg some hsplit.symm

/-- Whatever H256 is, CHK.VERIFY finds the checksum CHK.ATTACH put behind the bytes. -/
theorem execChkVerify_of_attach {B : Bytes} (h : s.ibuf = attach B) :
    execChkVerify s = .next (s.deliver B) := by
  have htake : s.ibuf.take (s.ibuf.length - 4) = B := by simp [h, attach]
  have hdrop : s.ibuf.drop (s.ibuf.length - 4) = check4 B := by simp [h, attach]
  rw [execChkVerify_of_match (by simp [h]) (by rw [htake, hdrop]), htake]

/-- Two commands with MOVE between them, as R89 writes its pseudo-commands: the second reads what the
first delivered. -/
theorem runMoves_cmd_moveOut_cmd {i j : Instr} {B C : Bytes} (h : exec i s = .next (s.deliver B))
    (hB : B.length ≤ Config.bufcap)
    (hj : ∀ u : State, u.ibuf = B → exec j u = .next (u.deliver C)) :
    ∃ t, runMoves (cmd i :: moveOut ++ [cmd j]) s = .next t ∧
      t.obuf = C ∧ t.errCode = 0 ∧ t.errf = s.errf ∧ t.stream = s.stream := by
  obtain ⟨u, hu, huIn, huStream, -, -, huFlag⟩ :=
    runMoves_moveOut ((s.deliver B).respond .done) hB
  rw [List.cons_append, runMoves_cmd (decode_encode i) h, runMoves_append hu,
    runMoves_singleton (hj u huIn)]
  exact ⟨_, rfl, rfl, rfl, huFlag, huStream⟩

theorem runMoves_b58cEnc (hin : s.ibuf.length + 4 ≤ Config.bufcap)
    (htext : (b58Enc (attach s.ibuf)).length ≤ Config.bufcap) :
    ∃ t, runMoves b58cEnc s = .next t ∧ t.obuf = b58Enc (attach s.ibuf) ∧ t.errCode = 0 ∧
      t.errf = s.errf ∧ t.stream = s.stream := by
  refine runMoves_cmd_moveOut_cmd (execChkAttach_of_fits hin) (by simpa using hin) fun u hu => ?_
  rw [← hu] at htext ⊢
  exact execB58Enc_of_fits htext

theorem runMoves_b58cDec {B : Bytes} (hin : s.ibuf = b58Enc (attach B))
    (hB : B.length + 4 ≤ Config.bufcap) :
    ∃ t, runMoves b58cDec s = .next t ∧ t.obuf = B ∧ t.errCode = 0 ∧
      t.errf = s.errf ∧ t.stream = s.stream :=
  runMoves_cmd_moveOut_cmd (execB58Dec_of_some (by rw [hin, b58Dec_b58Enc])) (by simpa using hB)
    fun _ => execChkVerify_of_attach

/-- Settles O27, part by part: the text is written, moved, and read back. -/
theorem base58CheckRoundTrip : Obligations.Base58CheckRoundTrip := by
  intro s hin htext
  obtain ⟨a, hEnc, haOut, -, haFlag, haStream⟩ := runMoves_b58cEnc hin htext
  obtain ⟨c, hMove, hcIn, hcStream, -, -, hcFlag⟩ := runMoves_moveOut a (haOut ▸ htext)
  obtain ⟨t, hDec, htOut, htCode, htFlag, htStream⟩ := runMoves_b58cDec (hcIn.trans haOut) hin
  rw [List.append_assoc, runMoves_append hEnc, runMoves_append hMove]
  exact ⟨t, hDec, htOut, htCode, htFlag.trans (hcFlag.trans haFlag),
    htStream.trans (hcStream.trans haStream)⟩

end Sys2Proof.Machine

/-! # Proofs of the Digest160 unit's statements (spec 40_digest160.md)

A message is whole blocks and a rest shorter than a block. The blocks are absorbed by `compressBlocks`, the
rest is the tail that finishing pads, and the padding of the whole message is that of its rest. The
compression itself is read step by step against the spec's tables. -/

namespace Sys2Proof.Machine

/-! ## Whole blocks (R125, R128) -/

theorem compressBlocks_zero (h : Chain) (B : Bytes) : compressBlocks 0 h B = h := rfl

theorem compressBlocks_succ (n : Nat) (h : Chain) (B : Bytes) :
    compressBlocks (n + 1) h B = compressBlocks n (compress h (B.take 64)) (B.drop 64) := rfl

/-- Folding over the blocks of `A` and `k` more is folding over those `k` from where `A` ends. -/
theorem compressBlocks_append {n : Nat} {A : Bytes} (hA : A.length = 64 * n) (k : Nat) (h : Chain)
    (P : Bytes) :
    compressBlocks (n + k) h (A ++ P) = compressBlocks k (compressBlocks n h A) P := by
  induction n generalizing A h with
  | zero =>
    obtain rfl := List.eq_nil_of_length_eq_zero hA
    rw [Nat.zero_add, List.nil_append, compressBlocks_zero]
  | succ n ih =>
    have htake : (A ++ P).take 64 = A.take 64 := List.take_append_of_le_length (by omega)
    have hdrop : (A ++ P).drop 64 = A.drop 64 ++ P := List.drop_append_of_le_length (by omega)
    rw [Nat.add_right_comm, compressBlocks_succ, compressBlocks_succ, htake, hdrop,
      ih (by rw [List.length_drop]; omega)]

/-- Whole blocks are compressed one by one and leave no tail. -/
theorem absorb_blocks {n : Nat} {A : Bytes} (hA : A.length = 64 * n) (h : Chain) (d : DWord) :
    absorb ⟨h, [], d⟩ A = ⟨compressBlocks n h A, [], d + 8 * BitVec.ofNat 64 A.length⟩ := by
  induction n generalizing A h d with
  | zero =>
    obtain rfl := List.eq_nil_of_length_eq_zero hA
    simp [compressBlocks_zero]
  | succ n ih =>
    have hblock : (A.take 64).length = 64 := by rw [List.length_take]; omega
    have hrest : (A.drop 64).length = 64 * n := by rw [List.length_drop]; omega
    have hfirst : absorb ⟨h, [], d⟩ (A.take 64) =
        ⟨compress h (A.take 64), [], d + 8 * BitVec.ofNat 64 64⟩ := by
      rw [absorb_of_block _ _ (by simp) (by simpa using hblock), hblock, List.nil_append]
    have hcount : A.length = 64 + (A.drop 64).length := by omega
    calc absorb ⟨h, [], d⟩ A
        = absorb (absorb ⟨h, [], d⟩ (A.take 64)) (A.drop 64) := by
          rw [← absorb_append, List.take_append_drop]
      _ = ⟨compressBlocks n (compress h (A.take 64)) (A.drop 64), [],
            d + 8 * BitVec.ofNat 64 64 + 8 * BitVec.ofNat 64 (A.drop 64).length⟩ := by
          rw [hfirst, ih hrest]
      _ = ⟨compressBlocks (n + 1) h A, [], d + 8 * BitVec.ofNat 64 A.length⟩ := by
          rw [compressBlocks_succ, hcount, BitVec.ofNat_add, BitVec.mul_add, BitVec.add_assoc]

/-- Of a message of blocks and a rest shorter than a block, the rest is the tail. -/
theorem absorb_initial_append {n : Nat} {A T : Bytes} (hA : A.length = 64 * n)
    (hT : T.length < 64) :
    absorb Stream.initial (A ++ T) =
      ⟨compressBlocks n Chain.iv A, T, 8 * BitVec.ofNat 64 (A ++ T).length⟩ := by
  rw [absorb_append, Stream.initial, absorb_blocks hA, absorb_of_short _ _ (by simpa using hT),
    List.nil_append, List.length_append, BitVec.ofNat_add, BitVec.mul_add]
  simp

/-! ## The padded end (R126, R127) -/

/-- Finishing compresses as many blocks as the padded tail has. -/
theorem finalChain_eq_compressBlocks {st : Stream} (h : st.tail.length < 64) :
    finalChain st =
      compressBlocks ((st.tail.length + 8) / 64 + 1) st.h (pad st.tail st.dlen) := by
  have hlen := length_pad h st.dlen
  by_cases hs : st.tail.length ≤ 55
  · have hone : (st.tail.length + 8) / 64 = 0 := by omega
    rw [if_pos hs] at hlen
    rw [finalChain_of_short hs, hone, compressBlocks_succ, compressBlocks_zero,
      List.take_of_length_le hlen.le]
  · have htwo : (st.tail.length + 8) / 64 = 1 := by omega
    rw [if_neg hs] at hlen
    rw [finalChain_of_long (by omega) h, htwo, compressBlocks_succ, compressBlocks_succ,
      compressBlocks_zero,
      List.take_of_length_le (l := (pad st.tail st.dlen).drop 64) (by rw [List.length_drop]; omega)]

/-- The whole message's padding is that of its rest, with the whole message's bit count. -/
theorem wholePad_append {n : Nat} {A T : Bytes} (hA : A.length = 64 * n) (hT : T.length < 64) :
    wholePad (A ++ T) = A ++ pad T (8 * BitVec.ofNat 64 (A ++ T).length) := by
  have hrest : (A ++ T).length % 64 = T.length := by rw [List.length_append]; omega
  have hcount : BitVec.ofNat 64 (8 * (A ++ T).length) = 8 * BitVec.ofNat 64 (A ++ T).length :=
    BitVec.ofNat_mul 8 _
  simp only [wholePad, hrest, hcount, pad, List.append_assoc]

/-- A message is its whole blocks and a rest shorter than a block. -/
theorem exists_blocks_append (B : Bytes) :
    ∃ n A T, B = A ++ T ∧ A.length = 64 * n ∧ T.length < 64 := by
  refine ⟨B.length / 64, B.take (64 * (B.length / 64)), B.drop (64 * (B.length / 64)),
    (List.take_append_drop ..).symm, ?_, ?_⟩
  · rw [List.length_take]; omega
  · rw [List.length_drop]; omega

/-- Settles O16, on a message split into its blocks and its rest: absorbing folds over the blocks,
finishing over the padded rest, and the two folds are one over the padded whole. -/
theorem digestIsTheFoldOverThePaddedMessage :
    Obligations.DigestIsTheFoldOverThePaddedMessage := by
  intro B
  obtain ⟨n, A, T, rfl, hA, hT⟩ := exists_blocks_append B
  have hcount : ((A ++ T).length + 8) / 64 + 1 = n + ((T.length + 8) / 64 + 1) := by
    rw [List.length_append]; omega
  have hpad := wholePad_append hA hT
  refine ⟨?_, ?_⟩
  · rw [hpad, hcount, List.length_append, length_pad hT, hA]
    split <;> omega
  · rw [hpad, hcount, compressBlocks_append hA, digest160, absorb_initial_append hA hT, finish,
      finalChain_eq_compressBlocks hT]

/-! ## Streaming (R131) -/

/-- A piece loaded and absorbed: the stream has absorbed it after what it had. -/
theorem runMoves_load_update (s : State) {B : Bytes} (hB : B.length ≤ Config.bufcap) :
    ∃ t, runMoves (load B ++ [cmd .d160Update]) s = .next t ∧ t.stream = absorb s.stream B ∧
      t.ibuf = B ∧ t.errf = s.errf := by
  obtain ⟨u, hload, huIn, huStream, -, -, huFlag⟩ := runMoves_load s hB
  rw [runMoves_append hload, runMoves_singleton (i := .d160Update) rfl]
  refine ⟨_, rfl, ?_, huIn, huFlag⟩
  rw [← huStream, ← huIn]
  rfl

/-- Settles O15, piece by piece: D160.INIT, the two pieces (`runMoves_load_update`), D160.FINAL. -/
theorem streamedPiecesDigestTheWhole : Obligations.StreamedPiecesDigestTheWhole := by
  intro s B C hB hC
  obtain ⟨a, hFirst, haStream, -, haFlag⟩ :=
    runMoves_load_update ((s.setStream Stream.initial).succeed.respond .done) hB
  obtain ⟨c, hSecond, hcStream, hcIn, hcFlag⟩ := runMoves_load_update a hC
  have hwhole : c.stream = absorb Stream.initial (B ++ C) := by
    rw [hcStream, haStream, absorb_append]
    rfl
  have hmoves : [cmd .d160Init] ++ load B ++ [cmd .d160Update] ++ load C ++
        [cmd .d160Update, cmd .d160Final] =
      cmd .d160Init :: ((load B ++ [cmd .d160Update]) ++ ((load C ++ [cmd .d160Update]) ++
        [cmd .d160Final])) := by
    simp
  rw [hmoves, runMoves_cmd (decode_encode .d160Init) rfl, runMoves_append hFirst,
    runMoves_append hSecond, runMoves_singleton (i := .d160Final) rfl]
  exact ⟨_, rfl, congrArg finish hwhole, hcIn, rfl, rfl, hcFlag.trans haFlag⟩

/-! ## The padding and the commands -/

/-- Settles O12: `padZeros` is the least count that works, below 64 whatever the tail. -/
theorem paddingShape : Obligations.PaddingShape := by
  refine ⟨rfl, rfl, fun tail dlen h => ⟨padZeros tail.length, ?_, ?_, fun z' hz' => ?_,
    fun hs => ?_, fun hl => ?_⟩⟩
  · rw [pad, le64, ← List.append_assoc]
  · unfold padZeros
    split <;> omega
  · unfold padZeros
    split <;> omega
  · exact ⟨if_pos hs, by rw [length_pad (by omega), if_pos hs]⟩
  · exact ⟨if_neg (by omega), by rw [length_pad (by omega), if_neg (by omega)]⟩

/-- Settles O8: the initialised stream written, and success. -/
theorem d160InitResult : Obligations.D160InitResult := ⟨rfl, fun _ => rfl⟩

/-- Settles O9: UPDATE absorbs IN; 32 zero bytes stay in the tail, 32 more complete a block. -/
theorem d160UpdateResult : Obligations.D160UpdateResult := by
  refine ⟨rfl, fun s => ⟨rfl, fun hempty => ?_, ?_, ?_⟩⟩
  · rw [hempty, absorb_nil]
  · rw [absorb_of_short _ _ (by decide)]
    rfl
  · rw [absorb_of_block _ _ (by decide) (by decide)]
    decide +kernel

/-- Settles O10: a byte and then the rest, and `absorb_append`. -/
theorem absorbByteByByte : Obligations.AbsorbByteByByte :=
  fun st b B C => ⟨absorb_nil st, absorb_cons st b B, (absorb_append st B C).symm⟩

/-- Settles O11: FINAL delivers what finishing gives; the two vectors are evaluated. -/
theorem d160FinalResult : Obligations.D160FinalResult := by
  refine ⟨rfl, fun s => ⟨rfl, length_finish _, fun hempty => ?_, fun habc => ?_⟩⟩
  · rw [hempty]
    decide +kernel
  · rw [habc]
    decide +kernel

/-- Settles O13: the two cases of `finalChain`. -/
theorem finishCompressesOnceOrTwice : Obligations.FinishCompressesOnceOrTwice :=
  ⟨fun _ h => congrArg serialise (finalChain_of_short h),
    fun _ h hlt => congrArg serialise (finalChain_of_long h (by omega)), fun _ => rfl, by decide⟩

/-- INIT, UPDATE, FINAL leave the state DIGEST leaves (R133). -/
theorem runMoves_init_update_final (s : State) :
    runMoves [cmd .d160Init, cmd .d160Update, cmd .d160Final] s =
      runMoves [cmd .d160Digest] s := by
  rw [runMoves_cmd (decode_encode .d160Init) rfl, runMoves_cmd (decode_encode .d160Update) rfl,
    runMoves_singleton (i := .d160Final) rfl, runMoves_singleton (i := .d160Digest) rfl]
  rfl

/-- Settles O14: DIGEST's state, that the three commands leave the same, and the vector. -/
theorem d160DigestResult : Obligations.D160DigestResult :=
  ⟨rfl, fun _ => ⟨rfl, length_digest160 _⟩,
    fun s => ⟨_, runMoves_singleton (i := .d160Digest) rfl,
      (runMoves_init_update_final s).trans (runMoves_singleton (i := .d160Digest) rfl)⟩,
    by decide +kernel⟩

/-! ## The compression (R112 to R119) -/

theorem rol32_eq_rotateLeft (x : Word) {n : Nat} (h : n < 32) : rol32 x n = x.rotateLeft n := by
  rw [rol32, BitVec.rotateLeft_def, Nat.mod_eq_of_lt h]

/-- Four bytes are an integer below 2^32, so LEW loses nothing (R12). -/
theorem toNat_lew (B : Bytes) : (lew B).toNat = (B.getD 0 0).toNat + 2 ^ 8 * (B.getD 1 0).toNat +
    2 ^ 16 * (B.getD 2 0).toNat + 2 ^ 24 * (B.getD 3 0).toNat := by
  have h0 := (B.getD 0 0).isLt
  have h1 := (B.getD 1 0).isLt
  have h2 := (B.getD 2 0).isLt
  have h3 := (B.getD 3 0).isLt
  rw [lew, BitVec.toNat_ofNat]
  exact Nat.mod_eq_of_lt (by omega)

theorem getD_take_drop (B : Bytes) (m : Nat) {k : Nat} (hk : k < 4) :
    ((B.drop m).take 4).getD k 0 = B.getD (m + k) 0 := by
  simp [List.getD_eq_getElem?_getD, hk]

/-- Message word `i` is LEW of bytes 4i to 4i + 3 (R112). -/
theorem toNat_getD_blockWords (blk : Bytes) {i : Nat} (hi : i < 16) :
    ((blockWords blk).getD i 0).toNat =
      (blk.getD (4 * i) 0).toNat + 2 ^ 8 * (blk.getD (4 * i + 1) 0).toNat +
      2 ^ 16 * (blk.getD (4 * i + 2) 0).toNat + 2 ^ 24 * (blk.getD (4 * i + 3) 0).toNat := by
  have hword : (blockWords blk).getD i 0 = lew ((blk.drop (4 * i)).take 4) := by
    simp [blockWords, List.getD_eq_getElem?_getD, hi]
  simp only [hword, toNat_lew, getD_take_drop, Nat.reduceLT, Nat.add_zero]

theorem sMain_lt : ∀ j < 80, sMain.getD j 0 < 32 := by decide

theorem sPar_lt : ∀ j < 80, sPar.getD j 0 < 32 := by decide

/-- A step with its rotations as rotations of a word (R13, R118). -/
theorem chainStep_eq (f : Word → Word → Word → Word) (x k : Word) {amount : Nat}
    (h : amount < 32) (w : Work) :
    chainStep f x k amount w =
      ⟨w.e, (w.a + f w.b w.c w.d + x + k).rotateLeft amount + w.e, w.b, w.c.rotateLeft 10, w.d⟩ := by
  rw [chainStep, rol32_eq_rotateLeft _ h, rol32_eq_rotateLeft _ (by decide)]

theorem mainChain_succ (X : List Word) (h : Chain) (n : Nat) :
    mainChain X h (n + 1) = mainStep X (mainChain X h n) n := by
  rw [mainChain, List.range_succ, List.foldl_append]
  rfl

theorem parChain_succ (X : List Word) (h : Chain) (n : Nat) :
    parChain X h (n + 1) = parStep X (parChain X h n) n := by
  rw [parChain, List.range_succ, List.foldl_append]
  rfl

/-- Settles O17: the words, the functions and the steps by their laws; the vectors are evaluated. -/
theorem compressionStepByStep : Obligations.CompressionStepByStep := by
  refine ⟨fun _ _ _ => ⟨rfl, rfl, rfl, rfl, rfl⟩, fun blk _ _ hi => toNat_getD_blockWords blk hi,
    fun X h => ⟨rfl, rfl, fun j hj => ⟨?_, ?_⟩⟩, fun _ _ => rfl, by decide +kernel,
    by decide +kernel, by decide +kernel, by decide +kernel⟩
  · exact (mainChain_succ X h j).trans (chainStep_eq _ _ _ (sMain_lt j hj) _)
  · exact (parChain_succ X h j).trans (chainStep_eq _ _ _ (sPar_lt j hj) _)

end Sys2Proof.Machine

/-! # Proofs of the base-58 converter's and the checksum's statements (spec 41_base58check.md)

A text of alphabet bytes is its leading zero-symbols and a digit string without a leading zero;
these stand for the leading zero bytes and the integer of the bytes behind them. Encoding after
decoding and the lengths are read through these two parts. The checksum's commands follow. -/

namespace Sys2Proof.Machine

/-! ## The two parts of a byte string and of a text (R151, R152) -/

/-- Copies of `c` in front add to the leading ones. -/
theorem leading_replicate_append_eq_add (c : Byte) (z : Nat) (B : Bytes) :
    leading c (List.replicate z c ++ B) = z + leading c B := by
  have hsplit := leading_split c B
  calc leading c (List.replicate z c ++ B)
      = leading c (List.replicate (z + leading c B) c ++ B.dropWhile (· == c)) := by
        rw [List.replicate_add, List.append_assoc, ← hsplit]
    _ = z + leading c B := leading_replicate_append c _ _ (head?_dropWhile_ne c B)

/-- Every leading zero byte is one zero-symbol, and the rest is encoded by itself (R155). -/
theorem b58Enc_replicate_zero_append (z : Nat) (R : Bytes) :
    b58Enc (List.replicate z 0x00 ++ R) = List.replicate z zeroSymbol ++ b58Enc R := by
  have hbe : be (List.replicate z 0x00 ++ R) = be R := be_replicate_zero_append z R
  rw [b58Enc, leading_replicate_append_eq_add, hbe, List.replicate_add, List.append_assoc, ← b58Enc]

/-- The shortest bytes of an integer are encoded as its base-58 digits (R151). -/
theorem b58Enc_minBE (n : Nat) : b58Enc (minBE n) = (digitsOf 58 n).map sym := by
  have hleading : leading 0x00 (minBE n) = 0 :=
    leading_replicate_append 0x00 0 _ (head?_minBE_ne_zero n)
  rw [b58Enc, hleading, be_minBE]
  rfl

/-- Leading zero-symbols leave the accumulator at 0. -/
theorem decodeFrom_zero_replicate_append (z : Nat) (S : Bytes) :
    decodeFrom 0 (List.replicate z zeroSymbol ++ S) = decodeFrom 0 S := by
  have hval : val zeroSymbol = some 0 := by decide
  induction z with
  | zero => rfl
  | succ z ih => simpa [List.replicate_succ, decodeFrom, hval] using ih

/-- A string of alphabet bytes is zero-symbols and then digits that begin with no zero (R154 b). -/
theorem exists_zeros_digits {S : Bytes} (h : ∀ c ∈ S, c ∈ alphabet) :
    ∃ (z : Nat) (ds : List Nat), (∀ d ∈ ds, d < 58) ∧ ds.head? ≠ some 0 ∧
      S = List.replicate z zeroSymbol ++ ds.map sym := by
  have hsplit := leading_split zeroSymbol S
  have hhead := head?_dropWhile_ne zeroSymbol S
  obtain ⟨ds, hlt, hds⟩ := exists_digits fun c hc => h c ((List.dropWhile_subset _) hc)
  rw [hds] at hsplit hhead
  refine ⟨_, ds, hlt, fun h0 => hhead ?_, hsplit⟩
  rw [List.head?_map, h0]
  rfl

/-- What such a text decodes to: its zero bytes and the shortest bytes of its base-58 value. -/
theorem b58Dec_zeros_digits (z : Nat) {ds : List Nat} (hlt : ∀ d ∈ ds, d < 58)
    (hhead : ds.head? ≠ some 0) :
    b58Dec (List.replicate z zeroSymbol ++ ds.map sym) =
      some (List.replicate z 0x00 ++ minBE (Nat.ofDigits 58 ds.reverse)) := by
  have hvalue : decodeFrom 0 (List.replicate z zeroSymbol ++ ds.map sym) =
      some (Nat.ofDigits 58 ds.reverse) := by
    rw [decodeFrom_zero_replicate_append, decodeFrom_map_sym hlt, Nat.zero_mul, Nat.zero_add]
  simp only [b58Dec, hvalue, leading_replicate_append _ _ _ (map_sym_head?_ne hlt hhead)]

/-- A text of alphabet bytes decodes, and encoding the bytes gives it back (R154 b). -/
theorem exists_b58Dec_and_b58Enc {S : Bytes} (h : ∀ c ∈ S, c ∈ alphabet) :
    ∃ B, b58Dec S = some B ∧ b58Enc B = S := by
  obtain ⟨z, ds, hlt, hhead, rfl⟩ := exists_zeros_digits h
  refine ⟨_, b58Dec_zeros_digits z hlt hhead, ?_⟩
  rw [b58Enc_replicate_zero_append, b58Enc_minBE, digitsOf_ofDigits (by decide) ds hlt hhead]

/-- The decoder fails exactly on a byte outside the alphabet (R156). -/
theorem b58Dec_eq_none_iff (S : Bytes) : b58Dec S = none ↔ ∃ c ∈ S, c ∉ alphabet := by
  rw [← decodeFrom_eq_none_iff 0 S, b58Dec]
  cases decodeFrom 0 S <;> simp

/-! ## Lengths (R154 c) -/

/-- 183/134 is just above log 256 / log 58 and still below 1.3658. -/
theorem pow_256_le_pow_58 : 256 ^ 134 ≤ 58 ^ 183 := by decide

/-- An integer of `len(R)` bytes has at most `1.3658 * len(R)` base-58 digits, rounded up. -/
theorem length_digitsOf_be_le (R : Bytes) :
    (digitsOf 58 (be R)).length ≤ (13658 * R.length + 9999) / 10000 := by
  generalize hk : (13658 * R.length + 9999) / 10000 = k
  have hratio : 183 * R.length ≤ 134 * k := by omega
  have hpow : (256 ^ R.length) ^ 134 ≤ (58 ^ k) ^ 134 :=
    calc (256 ^ R.length) ^ 134 = (256 ^ 134) ^ R.length := pow_right_comm ..
      _ ≤ (58 ^ 183) ^ R.length := Nat.pow_le_pow_left pow_256_le_pow_58 _
      _ = 58 ^ (183 * R.length) := (pow_mul ..).symm
      _ ≤ 58 ^ (134 * k) := Nat.pow_le_pow_right (by decide) hratio
      _ = (58 ^ k) ^ 134 := by rw [Nat.mul_comm, pow_mul]
  rw [length_digitsOf_le_iff (by decide)]
  exact (be_lt R).trans_le ((Nat.pow_le_pow_iff_left (by decide)).mp hpow)

/-- The text of `len(B)` bytes has at most `1.3658 * len(B)` symbols, rounded up: a leading zero
byte has one, and the rest as many as its integer has digits. -/
theorem length_b58Enc_le_ratio (B : Bytes) :
    (b58Enc B).length ≤ (13658 * B.length + 9999) / 10000 := by
  have hsplit := leading_split 0 B
  have hbe : be B = be (B.dropWhile (· == 0)) :=
    (congrArg be hsplit).trans (be_replicate_zero_append _ _)
  have hlength : B.length = leading 0 B + (B.dropWhile (· == 0)).length := by
    simpa using congrArg List.length hsplit
  have hdigits := length_digitsOf_be_le (B.dropWhile (· == 0))
  rw [length_b58Enc, hbe]
  omega

/-! ## The inverse laws (R154 a, b) -/

/-- Settles O21: `b58Dec_b58Enc`, which the base-58-check round trip rests on too. -/
theorem base58DecodeInvertsEncode : Obligations.Base58DecodeInvertsEncode := b58Dec_b58Enc

/-- Settles O22, on the text's zero-symbols and its digits (`exists_b58Dec_and_b58Enc`). -/
theorem base58EncodeInvertsDecode : Obligations.Base58EncodeInvertsDecode :=
  fun _ => exists_b58Dec_and_b58Enc

/-- Settles O26: what CHK.ATTACH delivers is moved to IBUF, where CHK.VERIFY finds its checksum. -/
theorem verifyUndoesAttach : Obligations.VerifyUndoesAttach := fun _ h =>
  runMoves_cmd_moveOut_cmd (execChkAttach_of_fits h) (by simpa using h)
    fun _ => execChkVerify_of_attach

/-! ## The converter's commands and the alphabet (R150, R154 c, R155, R156) -/

/-- Settles O19: the two cases of the capacity, the leading zero bytes and the length bound. -/
theorem b58EncResult : Obligations.B58EncResult := by
  refine ⟨rfl, fun s => ⟨execB58Enc_of_fits, execB58Enc_of_exceeds, ?_, fun h => ?_,
    by decide, by decide, by decide⟩⟩
  · intro z R hs
    rw [hs]
    exact b58Enc_replicate_zero_append z R
  · have := length_b58Enc_le_ratio s.ibuf
    omega

/-- Settles O20: alphabet bytes decode and never to more bytes; any other byte is a failure. -/
theorem b58DecResult : Obligations.B58DecResult := by
  refine ⟨rfl, fun s => ⟨fun h => ?_, fun h => ?_, by decide⟩⟩
  · obtain ⟨B, hB, -⟩ := exists_b58Dec_and_b58Enc h
    exact ⟨B, hB, length_le_of_b58Dec hB, execB58Dec_of_some hB⟩
  · have hnone := (b58Dec_eq_none_iff s.ibuf).mpr h
    exact ⟨hnone, execB58Dec_of_none hnone⟩

/-- Settles O23: decoding never lengthens, and the two instances are the bound at 25 and at 37. -/
theorem base58LengthBounds : Obligations.Base58LengthBounds := by
  refine ⟨fun _ _ => length_le_of_b58Dec, length_b58Enc_le_ratio, fun B hB => ?_, fun B hB => ?_⟩
  all_goals
    have := length_b58Enc_le_ratio B
    omega

/-- Settles O18: symbols and digit values by their laws; the bytes without one are listed. -/
theorem alphabetAndDigitValues : Obligations.AlphabetAndDigitValues :=
  ⟨by decide, length_alphabet, by decide, by decide, fun _ => val_sym,
    fun _ _ h => ⟨lt_of_val h, sym_val h⟩, by decide +kernel⟩

/-! ## The checksum's commands (R153, R157, R158) -/

/-- Settles O24: the two cases of the capacity; a checksum has four bytes. -/
theorem chkAttachResult : Obligations.ChkAttachResult :=
  ⟨rfl, fun s => ⟨fun h => ⟨execChkAttach_of_fits h, length_attach s.ibuf⟩,
    execChkAttach_of_exceeds⟩⟩

/-- Settles O25: the three cases in the order of the tests, the last one a payload with the checksum
CHK.ATTACH gives it. -/
theorem chkVerifyResult : Obligations.ChkVerifyResult := by
  refine ⟨rfl, fun s => ⟨execChkVerify_of_short, fun P C hs hC hne => ?_,
    fun P C hs _ hCheck => ?_⟩⟩
  · have hCheck : check4 P ≠ C := hne
    exact execChkVerify_of_mismatch (by simp [hs, hC]) (by simpa [hs, hC] using hCheck)
  · exact execChkVerify_of_attach (hs.trans (congrArg (P ++ ·) hCheck.symm))

end Sys2Proof.Machine

/-! # Proofs of the key formatter's statements (spec 42_keyformat.md)

KF.COMPRESS reads its input as a formatted point X ‖ Y, so its result follows from
`compressKey_formatKey`, once Y's parity is read off the low bit of Y's last byte. -/

namespace Sys2Proof.Machine

/-- The low bit of a byte is 0 exactly when its number is even (R41). -/
theorem toNat_mod_two_eq_zero_iff (b : Byte) : b.toNat % 2 = 0 ↔ b.getLsbD 0 = false := by
  simp [BitVec.getLsbD, Nat.testBit_zero]

/-- The marker is read off the last byte, and of the bytes before it only X is kept (R172). -/
theorem compressKey_formatKey_append_singleton {X Z : Bytes} (y : Byte) (hX : X.length = 32)
    (hZ : Z.length = 31) :
    compressKey (formatKey (X ++ (Z ++ [y]))) = (if y.getLsbD 0 then 0x03 else 0x02) :: X := by
  rw [compressKey_formatKey hX (by simp [hZ])]
  simp only [be_append_singleton_mod_two, toNat_mod_two_eq_zero_iff]
  cases y.getLsbD 0 <;> rfl

/-- Settles O29: the input is the formatted point X ‖ Z ‖ [y], and either flaw of it is a failure. -/
theorem kfCompressResult : Obligations.KfCompressResult := by
  refine ⟨rfl, fun s => ⟨fun X Z y hX hZ hs => ?_, fun h => execKfCompress_of_wrong (.inl h),
    fun h => execKfCompress_of_wrong (.inr h)⟩⟩
  have hkey : s.ibuf = formatKey (X ++ (Z ++ [y])) := by simpa [formatKey] using hs
  have hrun := execKfCompress_of_format (s := s) (by simp [hkey, hX, hZ]) (by rw [hkey]; rfl)
  rwa [hkey, compressKey_formatKey_append_singleton y hX hZ] at hrun

/-- Settles O28: the two cases of the length; the marker byte makes 65 of 64. -/
theorem kfFormatResult : Obligations.KfFormatResult :=
  ⟨rfl, fun _ => ⟨fun h => ⟨execKfFormat_of_length h, congrArg (· + 1) h⟩, execKfFormat_of_wrong⟩⟩

end Sys2Proof.Machine

/-! # Proofs of the derivation chains' statements (spec 43_pipeline.md)

A composite command is a sequence of primitive ones: HASH160, the byte ARG put in front, and
B58C.ENC (R89, R183). The lengths of the texts are read off ARG, the first byte of the checksummed
payload: it puts the payload's integer between two multiples of a power of 256. -/

namespace Sys2Proof.Machine

variable {s t : State} {a : Byte}

/-! ## The primitive sequences (R89, R183) -/

/-- A command's delivered output, moved to IBUF. -/
theorem runMoves_cmd_moveOut {i : Instr} {B : Bytes} (h : exec i s = .next (s.deliver B))
    (hB : B.length ≤ Config.bufcap) :
    ∃ u, runMoves (cmd i :: moveOut) s = .next u ∧ u.ibuf = B ∧ u.stream = s.stream ∧
      u.errCode = 0 ∧ u.errf = s.errf := by
  obtain ⟨u, hu, huIn, huStream, -, huCode, huFlag⟩ :=
    runMoves_moveOut ((s.deliver B).respond .done) hB
  exact ⟨u, (runMoves_cmd (decode_encode i) h).trans hu, huIn, huStream, huCode, huFlag⟩

/-- HASH160 delivers the Digest160 of the external digest, and leaves a fresh stream. -/
theorem runMoves_hash160 (s : State) :
    ∃ t, runMoves hash160 s = .next t ∧ t.obuf = digest160 (Config.h256 s.ibuf) ∧
      t.stream = Stream.initial ∧ t.errf = s.errf := by
  have hcap := Config.le_bufcap
  obtain ⟨u, hu, huIn, -, -, huFlag⟩ := runMoves_cmd_moveOut (s := s) (i := .extH256)
    (B := Config.h256 s.ibuf) rfl (by rw [Config.length_h256]; omega)
  rw [hash160, runMoves_append hu, runMoves_singleton (i := .d160Digest) rfl]
  exact ⟨_, rfl, congrArg digest160 huIn, rfl, huFlag⟩

/-- `ICLR`, `PUSH a`, `XFER`: the output with a byte in front becomes the input. -/
theorem runMoves_load_xfer (s : State) (a : Byte) (h : s.obuf.length + 1 ≤ Config.bufcap) :
    ∃ t, runMoves (load [a] ++ [cmd .xfer]) s = .next t ∧ t.ibuf = a :: s.obuf ∧
      t.stream = s.stream ∧ t.errf = s.errf := by
  obtain ⟨u, hu, huIn, huStream, huOut, -, huFlag⟩ := runMoves_load s (B := [a]) (by simp; omega)
  have hxfer := execXfer_of_fits (s := u) (by rw [huIn, huOut, Nat.add_comm]; exact h)
  rw [runMoves_append hu, runMoves_singleton (i := .xfer) hxfer]
  refine ⟨_, rfl, ?_, huStream, huFlag⟩
  simp [huIn, huOut]

/-- B58C.ENC leaves the checksummed payload in IBUF. -/
theorem ibuf_of_runMoves_b58cEnc (hin : s.ibuf.length + 4 ≤ Config.bufcap)
    (htext : (b58Enc (attach s.ibuf)).length ≤ Config.bufcap) (h : runMoves b58cEnc s = .next t) :
    t.ibuf = attach s.ibuf := by
  obtain ⟨u, hu, huIn, -⟩ :=
    runMoves_cmd_moveOut (i := .chkAttach) (execChkAttach_of_fits hin) (by simpa using hin)
  have henc := execB58Enc_of_fits (s := u) (huIn ▸ htext)
  rw [b58cEnc, runMoves_append hu, runMoves_singleton (i := .b58Enc) henc] at h
  obtain rfl := Host.Outcome.next.inj h
  exact huIn

/-- Settles O34, part by part: HASH160, the byte ARG in front, and B58C.ENC. -/
theorem drvAddrEqualsPrimitives : Obligations.DrvAddrEqualsPrimitives := by
  intro s a hs
  have hcap := Config.le_bufcap
  obtain ⟨b, hHash, hbOut, hbStream, hbFlag⟩ := runMoves_hash160 s
  obtain ⟨c, hFront, hcIn, hcStream, hcFlag⟩ :=
    runMoves_load_xfer b a (by rw [hbOut, length_digest160]; omega)
  have hpayload : c.ibuf = addressPayload a s.ibuf := by rw [hcIn, hbOut, addressPayload]
  have hin : c.ibuf.length + 4 ≤ Config.bufcap := by rw [hpayload, length_addressPayload]; omega
  have haddress : b58Enc (attach c.ibuf) = deriveAddress a s.ibuf := by rw [hpayload, deriveAddress]
  have htext : (b58Enc (attach c.ibuf)).length ≤ Config.bufcap := by
    rw [haddress]
    exact (length_deriveAddress_le a s.ibuf).trans (by omega)
  obtain ⟨u, hEnc, huOut, huCode, huFlag, huStream⟩ := runMoves_b58cEnc hin htext
  have hmoves : [cmd .extH256] ++ moveOut ++
        [cmd .d160Digest, cmd .iclr, pushMove a, cmd .xfer, cmd .chkAttach] ++ moveOut ++
        [cmd .b58Enc] = hash160 ++ ((load [a] ++ [cmd .xfer]) ++ b58cEnc) := rfl
  rw [hmoves, runMoves_append hHash, runMoves_append hFront,
    runMoves_singleton (i := .drvAddr a) (execDrvAddr_of_length a hs)]
  refine ⟨_, u, rfl, hEnc, (huOut.trans haddress).symm, ?_, huCode.symm, ?_, rfl, rfl, ?_⟩
  · exact (huStream.trans (hcStream.trans hbStream)).symm
  · exact (huFlag.trans (hcFlag.trans hbFlag)).symm
  · rw [ibuf_of_runMoves_b58cEnc hin htext hEnc, length_attach, hpayload, length_addressPayload]

/-- Settles O35: the byte ARG and the key are loaded together, and then B58C.ENC. -/
theorem drvWifEqualsPrimitives : Obligations.DrvWifEqualsPrimitives := by
  intro s a hs
  have hcap := Config.le_bufcap
  obtain ⟨c, hLoad, hcIn, hcStream, -, -, hcFlag⟩ :=
    runMoves_load s (B := a :: s.ibuf) (by rw [List.length_cons]; omega)
  have hin : c.ibuf.length + 4 ≤ Config.bufcap := by rw [hcIn, List.length_cons]; omega
  have hwif : b58Enc (attach c.ibuf) = deriveWif a s.ibuf := by rw [hcIn, deriveWif]
  obtain ⟨u, hEnc, huOut, huCode, huFlag, huStream⟩ := runMoves_b58cEnc hin <| by
    rw [hwif]
    exact (length_deriveWif_le a hs).trans (by omega)
  have hmoves : [cmd .iclr, pushMove a] ++ pushb s.ibuf ++ [cmd .chkAttach] ++ moveOut ++
        [cmd .b58Enc] = load (a :: s.ibuf) ++ b58cEnc := by
    simp [load, pushb, b58cEnc]
  rw [hmoves, runMoves_append hLoad,
    runMoves_singleton (i := .drvWif a) (execDrvWif_of_length a hs)]
  exact ⟨_, u, rfl, hEnc, (huOut.trans hwif).symm, huCode.symm, (huFlag.trans hcFlag).symm, rfl, rfl,
    huStream.trans hcStream⟩

/-! ## The text of a byte string by its first byte (R259) -/

theorem be_cons (a : Byte) (R : Bytes) : be (a :: R) = a.toNat * 256 ^ R.length + be R := by
  simpa [be] using be_append [a] R

theorem le_be_cons (a : Byte) (R : Bytes) : a.toNat * 256 ^ R.length ≤ be (a :: R) := by
  rw [be_cons]
  exact Nat.le_add_right ..

theorem be_cons_lt (a : Byte) (R : Bytes) : be (a :: R) < (a.toNat + 1) * 256 ^ R.length := by
  rw [be_cons, Nat.add_mul, Nat.one_mul]
  exact Nat.add_lt_add_left (be_lt R) _

/-- Without a leading zero byte the text is the digits of the integer alone (R151). -/
theorem b58Enc_cons (ha : a ≠ 0) (R : Bytes) :
    b58Enc (a :: R) = (digitsOf 58 (be (a :: R))).map sym := by
  have hleading : leading 0x00 (a :: R) = 0 :=
    leading_replicate_append 0x00 0 _ (by simpa using ha)
  rw [b58Enc, hleading]
  rfl

theorem length_b58Enc_cons_le {R : Bytes} {k : Nat} (ha : a ≠ 0)
    (h : (a.toNat + 1) * 256 ^ R.length ≤ 58 ^ k) : (b58Enc (a :: R)).length ≤ k := by
  rw [b58Enc_cons ha, List.length_map, length_digitsOf_le_iff (by decide)]
  exact (be_cons_lt a R).trans_le h

theorem ne_zero_of_pow_le_mul {k m : Nat} (h : 58 ^ k ≤ a.toNat * m) : a ≠ 0 := by
  rintro rfl
  simp at h

theorem lt_length_b58Enc_cons {R : Bytes} {k : Nat} (h : 58 ^ k ≤ a.toNat * 256 ^ R.length) :
    k < (b58Enc (a :: R)).length := by
  rw [b58Enc_cons (ne_zero_of_pow_le_mul h), List.length_map, ← Nat.not_le,
    length_digitsOf_le_iff (by decide), Nat.not_lt]
  exact h.trans (le_be_cons a R)

/-- The most significant digit is what dividing by the power at its position leaves. -/
theorem head?_digitsOf {b n k d : Nat} (hb : 2 ≤ b) (hd : d ≠ 0) (hlt : d < b)
    (h : n / b ^ k = d) : (digitsOf b n).head? = some d := by
  have hlow : ¬ n < b ^ k := fun hn => hd (h ▸ Nat.div_eq_of_lt hn)
  have hhigh : n < b ^ (k + 1) := by
    rw [pow_succ', ← Nat.div_lt_iff_lt_mul (Nat.pow_pos (by omega)), h]
    exact hlt
  rw [← length_digitsOf_le_iff hb, digitsOf_eq hb, List.length_reverse] at hlow hhigh
  have hlength : (Nat.digits b n).length = k + 1 := by omega
  have hdigit := Nat.getD_digits n k hb
  rw [h, Nat.mod_eq_of_lt hlt, List.getD_eq_getElem _ _ (by omega)] at hdigit
  rw [digitsOf_eq hb, List.head?_reverse, List.getLast?_eq_getElem?, hlength, Nat.add_sub_cancel,
    List.getElem?_eq_getElem (by omega), hdigit]

/-- No byte string is longer than its text: decoding the text never lengthens it (R154). -/
theorem length_le_length_b58Enc (B : Bytes) : B.length ≤ (b58Enc B).length :=
  length_le_of_b58Dec (b58Dec_b58Enc B)

/-- A leading zero byte is one zero-symbol (R155). -/
theorem b58Enc_zero_cons (R : Bytes) : b58Enc (0 :: R) = zeroSymbol :: b58Enc R :=
  b58Enc_replicate_zero_append 1 R

/-! ## The lengths of the WIF and of the address (R180, R181, R259) -/

/-- The first byte stays first in the checksummed payload. -/
theorem attach_cons (a : Byte) (B : Bytes) : attach (a :: B) = a :: (B ++ check4 (a :: B)) := rfl

/-- The first byte fixes the WIF's length when the whole range it leaves the payload's integer has
one number of digits. -/
theorem length_deriveWif {key : Bytes} {k : Nat} (hk : key.length = 32)
    (hlo : 58 ^ k ≤ a.toNat * 256 ^ 36) (hhi : (a.toNat + 1) * 256 ^ 36 ≤ 58 ^ (k + 1)) :
    (deriveWif a key).length = k + 1 := by
  have hrest : (key ++ check4 (a :: key)).length = 36 := by simp [hk]
  rw [deriveWif, attach_cons]
  rw [← hrest] at hlo hhi
  exact Nat.le_antisymm (length_b58Enc_cons_le (ne_zero_of_pow_le_mul hlo) hhi)
    (lt_length_b58Enc_cons hlo)

/-- 30 * 256^36 is above 58^50, and 256^37 below 58^51 (R259). -/
theorem length_deriveWif_of_high {key : Bytes} (hk : key.length = 32) (ha : 0x1E ≤ a.toNat) :
    (deriveWif a key).length = 51 := by
  have hlt := a.isLt
  exact length_deriveWif (k := 50) hk (by omega) (by omega)

/-- 256^36 is above 58^49, and 29 * 256^36 below 58^50 (R259). -/
theorem length_deriveWif_of_low {key : Bytes} (hk : key.length = 32) (hlo : 0x01 ≤ a.toNat)
    (hhi : a.toNat ≤ 0x1C) : (deriveWif a key).length = 50 :=
  length_deriveWif (k := 49) hk (by omega) (by omega)

/-- From 0x80 * 256^36 up to 0x81 * 256^36 the first of 51 base-58 digits is 4 (R181). -/
theorem head?_deriveWif_mainnet {key : Bytes} (hk : key.length = 32) :
    (deriveWif 0x80 key).head? = some 0x35 := by
  have hrest : (key ++ check4 (0x80 :: key)).length = 36 := by simp [hk]
  have hlow := le_be_cons 0x80 (key ++ check4 (0x80 :: key))
  have hhigh := be_cons_lt 0x80 (key ++ check4 (0x80 :: key))
  rw [hrest] at hlow hhigh
  have hdigit : be (0x80 :: (key ++ check4 (0x80 :: key))) / 58 ^ 50 = 4 := by
    have hprefix : (0x80 : Byte).toNat = 128 := rfl
    omega
  rw [deriveWif, attach_cons, b58Enc_cons (by decide), List.head?_map,
    head?_digitsOf (by decide) (by decide) (by decide) hdigit]
  rfl

/-- Settles O36, by the range ARG is in. -/
theorem wifTextLength : Obligations.WifTextLength := by
  intro s a hs
  refine ⟨_, execDrvWif_of_length a hs, length_deriveWif_of_high hs, length_deriveWif_of_low hs, ?_⟩
  rintro rfl
  exact head?_deriveWif_mainnet hs

/-- With ARG = 0x00 the address is a '1' and the text of 24 bytes (R180). -/
theorem deriveAddress_zero (key : Bytes) :
    (deriveAddress 0 key).length ≤ 34 ∧ (deriveAddress 0 key).head? = some 0x31 := by
  have hrest := length_b58Enc_le_ratio
    (digest160 (Config.h256 key) ++ check4 (0 :: digest160 (Config.h256 key)))
  rw [List.length_append, length_digest160, length_check4] at hrest
  rw [deriveAddress, addressPayload, attach_cons, b58Enc_zero_cons]
  exact ⟨Nat.succ_le_succ hrest, rfl⟩

/-- With another ARG the payload's integer is at least 256^24, which is above 58^32 (R180). -/
theorem le_length_deriveAddress (ha : a ≠ 0) (key : Bytes) : 33 ≤ (deriveAddress a key).length := by
  have hpos : a.toNat ≠ 0 := fun h => ha (BitVec.eq_of_toNat_eq h)
  rw [deriveAddress, addressPayload, attach_cons]
  refine lt_length_b58Enc_cons ?_
  rw [List.length_append, length_digest160, length_check4]
  omega

/-- Settles O37: 25 bytes have 25 to 35 symbols, and ARG narrows the range. -/
theorem addressTextLength : Obligations.AddressTextLength := by
  intro s a hs
  have hbytes : (attach (addressPayload a s.ibuf)).length = 25 := by simp
  have hlow := length_le_length_b58Enc (attach (addressPayload a s.ibuf))
  have hhigh := length_b58Enc_le_ratio (attach (addressPayload a s.ibuf))
  rw [hbytes] at hlow hhigh
  refine ⟨_, execDrvAddr_of_length a hs, hlow, hhigh.trans (by decide), ?_,
    fun ha => le_length_deriveAddress ha s.ibuf⟩
  rintro rfl
  exact deriveAddress_zero s.ibuf

/-! ## The commands (R180, R181, R182) -/

/-- Settles O31: the two cases of the length. -/
theorem drvAddrResult : Obligations.DrvAddrResult :=
  fun a => ⟨rfl, fun _ => ⟨execDrvAddr_of_length a, execDrvAddr_of_wrong a⟩⟩

/-- Settles O32: the two cases of the length. -/
theorem drvWifResult : Obligations.DrvWifResult :=
  fun a => ⟨rfl, fun _ => ⟨execDrvWif_of_length a, execDrvWif_of_wrong a⟩⟩

/-- Settles O33: the one effect of a failure, with the code of an unsupported operation. -/
theorem impWifResult : Obligations.ImpWifResult := ⟨rfl, fun _ => rfl⟩

end Sys2Proof.Machine

/-! # Proofs of the buffer and system commands' statements (spec 44_buffer_system.md)

The sticky flag is followed from a command to a written word, a move and a step: at each level one
thing clears it, CLRERR or its word, and from the move on the reset too. -/

namespace Sys2Proof.Machine

variable {s t : State}

/-! ## What clears the sticky flag (R192) -/

/-- Of the words written to CMD only CLRERR's clears the sticky flag. -/
theorem eq_encode_clrerr_of_runCommand {v : Word} (h : runCommand v s = .next t)
    (hs : s.errf = true) (ht : t.errf = false) : v = encode .clrerr := by
  cases hd : decode v with
  | error e =>
    rw [runCommand_of_error hd] at h
    obtain rfl := Host.Outcome.next.inj h
    cases ht
  | ok i =>
    rw [runCommand_of_ok hd] at h
    by_cases hi : i = .clrerr
    · exact hi ▸ decode_eq_ok_iff.mp hd
    · cases hs.symm.trans (errf_of_exec h hi ht)

/-- Of the host's moves only the reset and the write of CLRERR's word clear the sticky flag. -/
theorem eq_reset_or_clrerr_of_hostMove {m : HostMove} (h : hostMove m s = .next t)
    (hs : s.errf = true) (ht : t.errf = false) : m = .reset ∨ m = cmd .clrerr := by
  rcases hostMove_cases m s with
    ⟨_, _, v, -, -, hk⟩ | ⟨c, hk⟩ | ⟨v, rfl, hk⟩ | ⟨v, -, -, hk⟩ | ⟨hm, -⟩
  · obtain rfl := Host.Outcome.next.inj (hk ▸ h)
    cases hs.symm.trans ht
  · obtain rfl := busError_next (hk ▸ h)
    cases hs.symm.trans ht
  · rw [hk] at h
    obtain rfl := eq_encode_clrerr_of_runCommand (s := s.respond .done) h hs ht
    exact .inr rfl
  · obtain rfl := Host.Outcome.next.inj (hk ▸ h)
    cases hs.symm.trans ht
  · exact .inl hm

/-! ## The statements -/

/-- Settles O41: CLRERR's one effect; an idle step changes nothing, and a move that clears the flag is
the reset or the write of CLRERR's word. -/
theorem clrerrResult : Obligations.ClrerrResult := by
  refine ⟨rfl, fun _ => rfl, fun s t h hs ht => ?_⟩
  cases hp : s.host.pending with
  | nil =>
    obtain rfl := Host.Outcome.next.inj (step_of_idle hp ▸ h)
    cases hs.symm.trans ht
  | cons m rest =>
    rw [step_of_pending hp] at h
    rcases eq_reset_or_clrerr_of_hostMove h hs ht with rfl | rfl
    · exact ⟨rest, .inl rfl⟩
    · exact ⟨rest, .inr rfl⟩

/-- Settles O39: the two cases of the capacity. -/
theorem xferResult : Obligations.XferResult :=
  ⟨rfl, fun _ => ⟨execXfer_of_fits, execXfer_of_exceeds⟩⟩

/-- Settles O40: the one effect of ICLR, on the input alone. -/
theorem iclrResult : Obligations.IclrResult := ⟨rfl, fun _ => rfl⟩

/-- Settles O42: the digest delivered, which has 32 bytes whatever H256 is (`Config.length_h256`). -/
theorem extH256Result : Obligations.ExtH256Result :=
  ⟨rfl, fun s => ⟨rfl, Config.length_h256 s.ibuf⟩⟩

end Sys2Proof.Machine

/-! # Proofs of the statements on the host's procedure (spec 48_host_context.md R200, R207)

The procedure for one key is a chain of plans, and `Leads` says where each of them leads: the run,
the ledger and the duties at once. DRV.WIF alone is followed a second time, since it runs for every
key of 32 bytes while the duties ask for one within its invariant. -/

namespace Sys2Proof.Machine

variable {α : Type} {s t u : State} {d : Ledger} {i : Instr} {w : KeyWishes} {X Y key : Bytes}

/-! ## The commands of the procedure (R200) -/

/-- Settles O38: DRV.ADDR reads the compressed key of `pointToCompressedKey`, moved to IBUF. -/
theorem pointToAddress : Obligations.PointToAddress := by
  intro s X Y a hX hY
  have hcap := Config.le_bufcap
  obtain ⟨b, hkey, hbOut, -, -, hbFlag, -⟩ := pointToCompressedKey s X Y hX hY
  obtain ⟨c, hmove, hcIn, -, -, -, hcFlag⟩ :=
    runMoves_moveOut b (by rw [hbOut, List.length_cons, hX]; omega)
  have hin : c.ibuf = (if be Y % 2 = 0 then 0x02 else 0x03) :: X := hcIn.trans hbOut
  have hderive := runMoves_singleton (i := .drvAddr a)
    (execDrvAddr_of_length (s := c) a (by simp [hin, hX]))
  rw [addressProcedure, List.append_assoc, runMoves_append hkey, runMoves_append hmove, hderive]
  exact ⟨_, rfl, rfl, hcFlag.trans hbFlag, congrArg (deriveAddress a) hin⟩

/-! ## Chains of plans -/

/-- Where a plan leads, going on from wherever its first part does. -/
theorem exists_leads_trans {p p' q : Plan α} {R Q : Ledger → State → Prop}
    (h : ∃ d' u, Leads p d s p' d' u ∧ R d' u)
    (h' : ∀ d' u, R d' u → ∃ d'' v, Leads p' d' u q d'' v ∧ Q d'' v) :
    ∃ d'' v, Leads p d s q d'' v ∧ Q d'' v := by
  obtain ⟨d', u, hp, hR⟩ := h
  obtain ⟨d'', v, hq, hQ⟩ := h' d' u hR
  exact ⟨d'', v, hp.trans hq, hQ⟩

theorem sameBlock_trans (h : s.SameBlock t) (h' : t.SameBlock u) : s.SameBlock u := by
  obtain ⟨hstream, hibuf, hobuf, hcode, hflag⟩ := h
  obtain ⟨hstream', hibuf', hobuf', hcode', hflag'⟩ := h'
  exact ⟨hstream'.trans hstream, hibuf'.trans hibuf, hobuf'.trans hobuf, hcode'.trans hcode,
    hflag'.trans hflag⟩

/-- A command that makes its result from a sound input, its test, and its result read if wanted. -/
theorem leads_tested_readIf (hi : i ≠ .clrerr)
    (hout : ∀ k : Standing, (k.passed i).output = k.input) (wanted : Bool)
    (next : Option Bytes → Procedure α) (ha : commandAllowed d s i = true) (h : exec i s = .next t)
    (h0 : t.errCode = 0) (hlen : t.obuf.length ≤ 4096)
    (ho : d.testOwed = false) (hin : d.known.input = .sound) :
    ∃ d' u, Leads (tested i (readIf wanted next)) d s
        (next (if wanted then some t.obuf else none)) d' u ∧ t.SameBlock u ∧
      d'.testOwed = false ∧ d'.known.output = .sound ∧
      d'.streaming = streamingAfter d.streaming i := by
  obtain ⟨u, hu, htest⟩ := leads_tested (decode_encode i) (readIf wanted next) ha h h0
  obtain ⟨-, -, hobuf, -, -⟩ := id hu
  have hsound : (d.passedTest i t.ibuf.length).known.output = .sound := by
    rw [Ledger.passedTest_known, hout, Ledger.before, if_neg hi, hin]
  obtain ⟨v, hv, hread⟩ := leads_readIf wanted next rfl ho hsound (hobuf ▸ hlen)
  rw [hobuf] at hread
  exact ⟨_, v, htest.trans hread, sameBlock_trans hu hv,
    (Ledger.passedTest_testOwed ..).trans ho, hsound, rfl⟩

/-- The same, and its result read. -/
theorem leads_tested_readOutput (hi : i ≠ .clrerr)
    (hout : ∀ k : Standing, (k.passed i).output = k.input) (next : Bytes → Procedure α)
    (ha : commandAllowed d s i = true) (h : exec i s = .next t) (h0 : t.errCode = 0)
    (hlen : t.obuf.length ≤ 4096) (ho : d.testOwed = false) (hin : d.known.input = .sound) :
    ∃ d' u, Leads (tested i (readOutput next)) d s (next t.obuf) d' u ∧ t.SameBlock u ∧
      d'.testOwed = false ∧ d'.known.output = .sound ∧
      d'.streaming = streamingAfter d.streaming i :=
  leads_tested_readIf hi hout true (fun read => next (read.getD [])) ha h h0 hlen ho hin

/-! ## The steps of the procedure, within the host's duties (R200) -/

theorem exec_kfFormat_of_point (hin : s.ibuf = X ++ Y) (hX : X.length = 32) (hY : Y.length = 32) :
    exec .kfFormat s = .next (s.deliver (formatKey (X ++ Y))) :=
  hin ▸ execKfFormat_of_length (by simp [hin, hX, hY])

theorem exec_kfCompress_of_point (hin : s.ibuf = formatKey (X ++ Y)) (hX : X.length = 32)
    (hY : Y.length = 32) :
    exec .kfCompress s = .next (s.deliver ((if be Y % 2 = 0 then 0x02 else 0x03) :: X)) := by
  rw [← compressKey_formatKey hX hY, ← hin]
  exact execKfCompress_of_format (by simp [hin, hX, hY]) (by rw [hin]; rfl)

theorem exec_drvWif_of_key (arg : Byte) (hin : s.ibuf = key) (hk : key.length = 32) :
    exec (.drvWif arg) s = .next (s.deliver (deriveWif arg key)) :=
  hin ▸ execDrvWif_of_length arg (hin ▸ hk)

/-- Steps 2 to 4 of R200, within the host's duties: the keys wanted and the address are read. -/
theorem leads_addressPlan (next : Option Bytes → Option Bytes → Bytes → Procedure α)
    (hX : X.length = 32) (hY : Y.length = 32) (ho : d.testOwed = false) (hs : d.streaming = false) :
    let compressed := (if be Y % 2 = 0 then 0x02 else 0x03) :: X
    ∃ d' u, Leads (addressPlan w X Y next) d s
        (next (if w.readUncompressed then some ([0x04] ++ X ++ Y) else none)
          (if w.readCompressed then some compressed else none)
          (deriveAddress w.addressPrefix compressed)) d' u ∧
      d'.testOwed = false ∧ u.errf = s.errf := by
  intro compressed
  have hcap := Config.le_bufcap
  have hpoint : (X ++ Y).length = 64 := by simp [hX, hY]
  have hcompressed : compressed.length = 33 := by simp [compressed, hX]
  have haddress := length_deriveAddress_le w.addressPrefix compressed
  unfold addressPlan
  -- step 2: load the point and format it
  refine exists_leads_trans (leads_loadTested _ _ (by omega) ho)
    fun d₁ s₁ ⟨⟨in₁, _, _, _, flag₁⟩, owed₁, str₁, _, sound₁, _⟩ => ?_
  refine exists_leads_trans (leads_tested_readIf (by decide) (fun _ => rfl) _ _
      (by simp [commandAllowed, in₁, hpoint]) (exec_kfFormat_of_point in₁ hX hY) rfl
      (by simp [hX, hY]) owed₁ sound₁)
    fun d₂ s₂ ⟨⟨_, _, out₂, _, flag₂⟩, owed₂, sound₂, str₂⟩ => ?_
  have out₂ : s₂.obuf = formatKey (X ++ Y) := out₂
  -- step 3: move the formatted key and compress it
  refine exists_leads_trans
      (leads_moveTested _ (by rw [out₂, length_formatKey, hpoint]; omega) owed₂)
    fun d₃ s₃ ⟨⟨in₃, _, _, _, flag₃⟩, owed₃, str₃, _, sound₃⟩ => ?_
  refine exists_leads_trans (leads_tested_readIf (by decide) (fun _ => rfl) _ _ rfl
      (exec_kfCompress_of_point (in₃.trans out₂) hX hY) rfl (by simp [hX]) owed₃ (sound₃ sound₂))
    fun d₄ s₄ ⟨⟨_, _, out₄, _, flag₄⟩, owed₄, sound₄, str₄⟩ => ?_
  have out₄ : s₄.obuf = compressed := out₄
  -- step 4: move the compressed key and derive its address
  refine exists_leads_trans (leads_moveTested _ (by rw [out₄, hcompressed]; omega) owed₄)
    fun d₅ s₅ ⟨⟨in₅, _, _, _, flag₅⟩, owed₅, str₅, _, sound₅⟩ => ?_
  have in₅ : s₅.ibuf = compressed := in₅.trans out₄
  have hderive : exec (.drvAddr w.addressPrefix) s₅ = .next
      ((s₅.setStream Stream.initial).deliver (deriveAddress w.addressPrefix compressed)) :=
    in₅ ▸ execDrvAddr_of_length _ (by rw [in₅, hcompressed])
  have hidle : d₅.streaming = false := by rw [str₅, str₄, str₃, str₂, str₁]; exact hs
  obtain ⟨d₆, s₆, hread, ⟨-, -, -, -, flag₆⟩, owed₆, -, -⟩ := leads_tested_readOutput
    (by simp) (fun _ => rfl) _ (by simp [commandAllowed, hidle]) hderive rfl
    (haddress.trans (by decide)) owed₅ (sound₅ sound₄)
  exact ⟨d₆, s₆, hread, owed₆, flag₆.trans <| flag₅.trans <| flag₄.trans <| flag₃.trans <|
    flag₂.trans flag₁⟩

/-- Overwriting IBUF, if wanted (R257). -/
theorem leads_scrubIf (wanted : Bool) (next : Procedure α) (ho : d.testOwed = false) :
    ∃ d' u, Leads (scrubIf wanted next) d s next d' u ∧
      (s.errCode = 0 → u.errCode = 0) ∧ u.errf = s.errf ∧ (wanted = false → u.ibuf = s.ibuf) ∧
      (wanted = true → u.ibuf = List.replicate 32 0x00 ∧ d'.key = .absent) := by
  cases wanted with
  | false => exact ⟨d, s, Leads.refl .., by simp⟩
  | true =>
    have hcap := Config.le_bufcap
    obtain ⟨d', u, hlead, ⟨hibuf, -, -, hcode, hflag⟩, -, -, -, -, hkey⟩ :=
      leads_loadTested (s := s) (List.replicate 32 0x00) next
        (by rw [List.length_replicate]; omega) ho
    exact ⟨d', u, hlead, fun _ => hcode, hflag, nofun, fun _ => ⟨hibuf, hkey (by simp)⟩⟩

/-- Step 5 of R200, within the host's duties: the key is within its invariant (R203), and
overwritten where it must not linger. -/
theorem leads_wifPlan (next : Bytes → Procedure α) (hk : key.length = 32)
    (hlt : be key < Config.curveOrder) (ho : d.testOwed = false) :
    ∃ d' u, Leads (wifPlan w key next) d s (next (deriveWif w.wifPrefix key)) d' u ∧
      (w.scrub = true → d'.key = .absent) := by
  have hcap := Config.le_bufcap
  unfold wifPlan
  refine exists_leads_trans (leads_loadTested _ _ (by omega) ho)
    fun d₁ s₁ ⟨⟨in₁, _, _, _, _⟩, owed₁, _, _, sound₁, _⟩ => ?_
  refine exists_leads_trans (leads_tested_readOutput (by simp) (fun _ => rfl) _
      (by simp [commandAllowed, isPrivateKey, in₁, hk, hlt]) (exec_drvWif_of_key _ in₁ hk) rfl
      ((length_deriveWif_le w.wifPrefix hk).trans (by decide)) owed₁ sound₁)
    fun d₂ s₂ ⟨_, owed₂, _, _⟩ => ?_
  obtain ⟨d₃, s₃, hscrub, -, -, -, hkey⟩ := leads_scrubIf (s := s₂) w.scrub _ owed₂
  exact ⟨d₃, s₃, hscrub, fun hw => (hkey hw).2⟩

/-- Settles O59: neither step leaves the host's duties, and the second ends with the key overwritten
where it must not linger. -/
theorem hostProcedureIsDutiful : Obligations.HostProcedureIsDutiful := by
  intro w key X Y d s hk hlt hX hY ho hs
  obtain ⟨d₁, s₁, haddress, howed, -⟩ := leads_addressPlan (w := w) (s := s) _ hX hY ho hs
  obtain ⟨d₂, s₂, hwif, hkey⟩ := leads_wifPlan (w := w) (s := s₁) _ hk hlt howed
  refine haddress.duty _ (hwif.duty _ ?_)
  cases hw : w.scrub with
  | false => rfl
  | true => simp [dutiful, hkey hw]

/-! ## The run of the procedure, whatever the key (R181, R200) -/

/-- Step 5 of R200 runs to its end for every key of 32 bytes, within its invariant or not. -/
theorem runPlan_wifPlan (next : Bytes → Procedure α) (s : State) (hk : key.length = 32) :
    ∃ u, runPlan (wifPlan w key next) s = runPlan (next (deriveWif w.wifPrefix key)) u ∧
      u.errCode = 0 ∧ u.errf = s.errf ∧ (w.scrub = false → u.ibuf = key) ∧
      (w.scrub = true → u.ibuf = List.replicate 32 0x00) := by
  have hcap := Config.le_bufcap
  obtain ⟨_, s₁, hload, ⟨in₁, -, -, -, flag₁⟩, -⟩ := leads_loadTested (d := Ledger.start) (s := s)
    key (tested (.drvWif w.wifPrefix) <| readOutput fun wif => scrubIf w.scrub (next wif))
    (by omega) rfl
  obtain ⟨s₂, ⟨-, in₂, out₂, code₂, flag₂⟩, htest⟩ := runPlan_tested (decode_encode _)
    (readOutput fun wif => scrubIf w.scrub (next wif)) (exec_drvWif_of_key _ in₁ hk) rfl
  have out₂ : s₂.obuf = deriveWif w.wifPrefix key := out₂
  obtain ⟨s₃, ⟨-, in₃, -, code₃, flag₃⟩, hread⟩ := leads_readOutput (d := Ledger.start) (s := s₂)
    (fun wif => scrubIf w.scrub (next wif)) rfl rfl rfl
    (by rw [out₂]; exact (length_deriveWif_le w.wifPrefix hk).trans (by decide))
  obtain ⟨_, s₄, hscrub, code₄, flag₄, keep, scrub⟩ :=
    leads_scrubIf (d := Ledger.start) (s := s₃) w.scrub (next s₂.obuf) rfl
  refine ⟨s₄, ?_, code₄ (code₃.trans code₂), ?_, fun hw => ?_, fun hw => (scrub hw).1⟩
  · rw [wifPlan, hload.run, htest, hread.run, hscrub.run, out₂]
  · exact flag₄.trans (flag₃.trans (flag₂.trans flag₁))
  · exact (keep hw).trans (in₃.trans (in₂.trans in₁))

/-- ERR reads as 0 exactly when the code is 0 (R28). -/
theorem errReg_eq_zero_iff (s : State) : s.errReg = 0 ↔ s.errCode = 0 := by
  have hval : s.errReg.toNat = s.errCode.toNat := BitVec.toNat_setWidth_of_le (by decide)
  rw [← BitVec.toNat_inj, ← BitVec.toNat_inj, hval]
  rfl

/-- A test that shows a nonzero code ends a procedure there (R256). -/
theorem runPlan_tested_of_fails (next : Procedure α) (h : exec i s = .next t) (h0 : t.errCode ≠ 0) :
    ∃ u, runPlan (tested i next) s = .next (.error (.code (t.errCode.zeroExtend 32)), u) ∧
      t.SameBlock u := by
  have hread : memRead ((t.respond .done).setPending []) 4 (regOffset .err) = .ok t.errReg := rfl
  have hrun := (leads_rd (d := Ledger.start) (fun code =>
    if code = 0 then next else .done (.error (.code code))) rfl hread).run
  rw [if_neg (mt (errReg_eq_zero_iff t).mp h0), runPlan] at hrun
  rw [tested, runPlan, step_cmd (decode_encode i) h]
  exact ⟨_, hrun, rfl, rfl, rfl, rfl, rfl⟩

/-- Settles O58: the two steps one after the other, and the end of a test that shows a failure. -/
theorem hostProcedureForOneKey : Obligations.HostProcedureForOneKey := by
  refine ⟨fun w key X Y s hk hX hY => ?_, fun i next s t => runPlan_tested_of_fails next⟩
  obtain ⟨_, s₁, haddress, -, flag₁⟩ :=
    leads_addressPlan (w := w) (d := Ledger.start) (s := s) _ hX hY rfl rfl
  obtain ⟨t, hwif, hcode, flag₂, hkeep, hscrub⟩ := runPlan_wifPlan (w := w) _ s₁ hk
  exact ⟨t, haddress.run.trans hwif, hcode, flag₂.trans flag₁, hkeep, hscrub⟩

end Sys2Proof.Machine

/-! # Proofs of the statement on a dutiful host (spec 48_host_context.md R207)

`step_move_cases` says once what a move of a host can do to the block. Each of its cases keeps the
ledger in agreement with the block, and OBUF what the last move that asked for an output left there;
both are then kept along a run. -/

namespace Sys2Proof.Machine

variable {s t : State} {d : Ledger} {i : Instr} {m : HostMove} {truth : Standing}

/-! ## What one move does to the block (R50, R80, R83, R250) -/

/-- Everything one move of a host can do to the block and answer: a read with an answer; a push or
a bus error, which is no command, answers no value and changes at most the input; a command; an
illegal word; or the reset. -/
theorem step_move_cases (h : step (s.setPending [m]) = .next t) :
    (∃ width off v, m = .read width off ∧ memRead s width off = .ok v ∧ s.SameBlock t ∧
      t.host.response = some (.value v)) ∨
    ((∀ v, m ≠ .write 4 0x0000 v) ∧ m ≠ .reset ∧ (∃ B, (s.setInput B).SameBlock t) ∧
      ∀ v, t.host.response ≠ some (.value v)) ∨
    (∃ i u, m = cmd i ∧ exec i s = .next u ∧ u.SameBlock t) ∨
    (∃ v e, m = .write 4 0x0000 v ∧ decode v = .error e ∧
      (s.raiseFail .illegalCommand).SameBlock t) ∨
    (m = .reset ∧ State.reset.SameBlock t) := by
  have h : hostMove m (s.setPending []) = .next t := h
  rcases hostMove_cases m (s.setPending []) with
    ⟨width, off, v, rfl, hread, hk⟩ | ⟨c, hk⟩ | ⟨v, rfl, hk⟩ | ⟨v, rfl, -, hk⟩ | ⟨rfl, hk⟩
  · obtain rfl := Host.Outcome.next.inj (hk ▸ h)
    exact .inl ⟨width, off, v, rfl, hread, ⟨rfl, rfl, rfl, rfl, rfl⟩, rfl⟩
  · obtain ⟨hr, hc, rfl⟩ := busError_move hk h
    exact .inr (.inl ⟨hc, hr, ⟨s.ibuf, rfl, rfl, rfl, rfl, rfl⟩, nofun⟩)
  · rw [hk] at h
    cases hd : decode v with
    | ok i =>
      rw [runCommand_of_ok hd] at h
      have hrun : exec i s = .next { t with host := s.host } :=
        exec_withHost i ((s.setPending []).respond .done) s.host h
      obtain rfl := decode_eq_ok_iff.mp hd
      exact .inr (.inr (.inl ⟨i, _, rfl, hrun, rfl, rfl, rfl, rfl, rfl⟩))
    | error e =>
      rw [runCommand_of_error hd] at h
      obtain rfl := Host.Outcome.next.inj h
      exact .inr (.inr (.inr (.inl ⟨v, e, rfl, hd, rfl, rfl, rfl, rfl, rfl⟩)))
  · obtain rfl := Host.Outcome.next.inj (hk ▸ h)
    exact .inr (.inl ⟨by simp, nofun, ⟨_, rfl, rfl, rfl, rfl, rfl⟩, nofun⟩)
  · obtain rfl := Host.Outcome.next.inj (hk ▸ h)
    exact .inr (.inr (.inr (.inr ⟨rfl, rfl, rfl, rfl, rfl, rfl⟩)))

/-! ## The ledger agrees with the block, move by move (R207) -/

/-- The agreement speaks of the stream and the error record alone. -/
theorem agrees_of_sameBlock (ha : d.Agrees truth s) (h : s.SameBlock t) : d.Agrees truth t := by
  obtain ⟨hstream, -, -, hcode, hflag⟩ := h
  rw [Ledger.Agrees, hstream, hcode, hflag]
  exact ha

/-- ERR tells which of the two outcomes the last command had. -/
theorem agrees_sawErr (ha : d.Agrees truth s) : (d.sawErr s.errReg).Agrees truth s := by
  obtain ⟨hstream, hcode, hdata⟩ := ha
  unfold Ledger.sawErr
  by_cases h0 : s.errCode = 0
  · rw [if_pos ((errReg_eq_zero_iff s).mpr h0)]
    rw [if_pos h0] at hdata
    exact ⟨hstream, fun _ => h0, by simpa [h0] using hdata⟩
  · rw [if_neg (mt (errReg_eq_zero_iff s).mp h0)]
    rw [if_neg h0] at hdata
    exact ⟨hstream, fun h => hcode (h.imp_left nofun), by simpa [h0] using hdata⟩

/-- STATUS reads as 0 exactly when the flag is clear (R29). -/
theorem statusReg_eq_zero_iff (s : State) : s.statusReg = 0 ↔ s.errf = false := by
  cases hf : s.errf <;> simp [State.statusReg, hf]

/-- STATUS with the flag clear proves what waited for its test; with it set it proves no result. -/
theorem agrees_sawStatus (he : s.errorWf) (ha : d.Agrees truth s) :
    (d.sawStatus s.statusReg).Agrees truth s := by
  obtain ⟨hstream, hcode, hdata⟩ := ha
  unfold Ledger.sawStatus
  by_cases hf : s.errf = false
  · have h0 : s.errCode = 0 := by
      by_contra hne
      cases hf.symm.trans (he.2 hne)
    rw [if_pos ((statusReg_eq_zero_iff s).mpr hf)]
    rw [if_pos h0, hf] at hdata
    refine ⟨hstream, fun _ => h0, ?_⟩
    simpa [h0, hf] using hdata.proved
  · rw [if_neg (mt (statusReg_eq_zero_iff s).mp hf)]
    refine ⟨hstream, fun h => hcode ?_, hdata⟩
    revert h
    cases d.verdict <;> cases d.fallible <;> simp

/-- Of the answers only those of ERR and of STATUS are noted. -/
theorem agrees_note_read {width off : Nat} {v : Word} (he : s.errorWf) (ha : d.Agrees truth s)
    (hread : memRead s width off = .ok v) (hans : t.host.response = some (.value v)) :
    (d.note (.read width off) t).Agrees truth s := by
  simp only [Ledger.note, hans]
  split_ifs with hw hErr hStatus
  · subst hw hErr
    have hval : memRead s 4 0x0008 = .ok s.errReg := rfl
    obtain rfl := Except.ok.inj (hval.symm.trans hread)
    exact agrees_sawErr ha
  · subst hw hStatus
    have hval : memRead s 4 0x0004 = .ok s.statusReg := rfl
    obtain rfl := Except.ok.inj (hval.symm.trans hread)
    exact agrees_sawStatus he ha
  · exact ha
  · exact ha

theorem note_read_without_value {width off : Nat} (hans : ∀ v, t.host.response ≠ some (.value v)) :
    d.note (.read width off) t = d := by
  cases hr : t.host.response with
  | none => simp [Ledger.note, hr]
  | some r =>
    cases r with
    | value v => exact absurd hr (hans v)
    | done | busError => simp [Ledger.note, hr]

/-- A move that is neither a command nor a reset leaves the true standing as it was. -/
theorem after_of_no_command (hc : ∀ v, m ≠ .write 4 0x0000 v) (hr : m ≠ .reset) (k : Standing)
    (t : State) : k.after m t = k := by
  cases m with
  | read => rfl
  | write width off v =>
    refine if_neg ?_
    rintro ⟨rfl, rfl⟩
    exact hc v rfl
  | reset => exact absurd rfl hr

/-- A push or a bus error is noted at most in the key's trace. -/
theorem agrees_note_quiet (hc : ∀ v, m ≠ .write 4 0x0000 v) (hr : m ≠ .reset)
    (hans : ∀ v, t.host.response ≠ some (.value v)) (ha : d.Agrees truth s) :
    (d.note m t).Agrees truth s := by
  cases m with
  | read width off =>
    rw [note_read_without_value hans]
    exact ha
  | write width off v =>
    have hcmd : ¬ (width = 4 ∧ off = 0x0000) := by
      rintro ⟨rfl, rfl⟩
      exact hc v rfl
    simp only [Ledger.note, if_neg hcmd]
    exact ha
  | reset => exact absurd rfl hr

/-- The ledger's account of the message follows the stream (R254). -/
theorem stream_of_streamingAfter (h : exec i s = .next t)
    (hs : d.streaming = false → s.stream = Stream.initial)
    (ha : streamingAfter d.streaming i = false) : t.stream = Stream.initial := by
  cases i with
  | d160Update => cases ha
  | d160Init | d160Final | d160Digest =>
    obtain rfl := Host.Outcome.next.inj h
    rfl
  | b58Enc | b58Dec | chkAttach | chkVerify | kfFormat | kfCompress | drvAddr | drvWif | impWif
  | xfer | clrerr | iclr | extH256 => exact stream_of_exec h (hs ha) nofun

/-- What the host holds for a command to start from is true, whatever that does to the flag. -/
theorem before_covers (he : s.errorWf) (ha : d.Agrees truth s) (h : exec i s = .next t) :
    (d.before i).Covers truth t.errf := by
  obtain ⟨-, -, hdata⟩ := ha
  have hknown := Ledger.known_covers he hdata
  unfold Ledger.before
  split_ifs with hi
  · exact hknown.abandoned
  · exact hknown.mono (errf_of_exec h hi)

/-- A command: either outcome is on the ledger, and the true one is that of its code. -/
theorem agrees_ran (he : s.errorWf) (ha : d.Agrees truth s) (h : exec i s = .next t) :
    (d.ran i).Agrees (truth.ended i (t.errCode == 0)) t := by
  obtain ⟨hidle, -, -⟩ := id ha
  refine ⟨stream_of_streamingAfter h hidle, ?_, ?_⟩
  · rintro (hv | hc)
    · cases hv
    · exact errCode_of_canFail_eq_false h hc
  · have hended := (before_covers he ha h).ended i (t.errCode == 0)
    by_cases h0 : t.errCode = 0
    · rw [if_pos h0]
      rw [beq_iff_eq.mpr h0] at hended ⊢
      exact hended
    · rw [if_neg h0]
      rw [beq_false_of_ne h0] at hended ⊢
      exact hended

/-- An illegal word fails, and brings no result. -/
theorem agrees_ranIllegal (he : s.errorWf) (ha : d.Agrees truth s) :
    d.ranIllegal.Agrees { truth with output := .unfit } (s.raiseFail .illegalCommand) := by
  obtain ⟨hstream, -, hdata⟩ := ha
  obtain ⟨-, hin, hmsg⟩ := (Ledger.known_covers he hdata).mono (g := true) nofun
  refine ⟨hstream, ?_, ?_⟩
  · rintro (hv | hc)
    · cases hv
    · cases hc
  · rw [if_neg (show (s.raiseFail .illegalCommand).errCode ≠ 0 from
      ErrKind.code_ne_zero .illegalCommand)]
    exact ⟨Trust.covers_unfit, hin, hmsg⟩

theorem after_cmd (k : Standing) (t : State) : k.after (cmd i) t = k.ended i (t.errCode == 0) := by
  simp [Standing.after, cmd, commandMove, decode_encode]

theorem after_illegal {v : Word} {e : DecodeError} (k : Standing) (hd : decode v = .error e) :
    k.after (.write 4 0x0000 v) t = { k with output := .unfit } := by
  simp [Standing.after, hd]

theorem note_illegal {v : Word} {e : DecodeError} (hd : decode v = .error e) :
    d.note (.write 4 0x0000 v) t = { d.ranIllegal with key := d.key.settle t.ibuf.length } := by
  simp [Ledger.note, hd]
  rfl

/-- Every move and its answer, noted, keep the ledger in agreement. -/
theorem agrees_note (he : s.errorWf) (ha : d.Agrees truth s)
    (h : step (s.setPending [m]) = .next t) : (d.note m t).Agrees (truth.after m t) t := by
  rcases step_move_cases h with ⟨width, off, v, rfl, hread, hb, hans⟩ | ⟨hc, hr, ⟨B, hb⟩, hans⟩ |
    ⟨i, u, rfl, hrun, hb⟩ | ⟨v, e, rfl, hd, hb⟩ | ⟨rfl, hb⟩
  · exact agrees_of_sameBlock (agrees_note_read he ha hread hans) hb
  · rw [after_of_no_command hc hr]
    exact agrees_of_sameBlock (s := s.setInput B) (agrees_note_quiet hc hr hans ha) hb
  · have hran := agrees_of_sameBlock (agrees_ran he ha hrun) hb
    obtain ⟨-, -, -, hcode, -⟩ := hb
    rw [note_cmd (decode_encode _), after_cmd, hcode]
    exact hran
  · have hran := agrees_of_sameBlock (agrees_ranIllegal he ha) hb
    rw [note_illegal hd, after_illegal truth hd]
    exact hran
  · have hstart : Ledger.start.Agrees .fresh State.reset :=
      ⟨fun _ => rfl, fun _ => rfl, Trust.covers_sound, Trust.covers_sound, Trust.covers_sound⟩
    exact agrees_of_sameBlock hstart hb

/-- Along a dutiful run the invariant and the agreement are kept. -/
theorem agrees_of_dutifulRun {d' : Ledger} {s' : State} {h : List Event} (hs : s.Inv)
    (ha : d.Agrees truth s) (hr : DutifulRun d s h d' s') :
    s'.Inv ∧ d'.Agrees (truth.afterAll h) s' := by
  induction hr with
  | refl => exact ⟨hs, ha⟩
  | move _ _ next ih =>
    obtain ⟨hinv, hagrees⟩ := ih hs ha
    obtain ⟨-, -, herr⟩ := id hinv
    exact ⟨stepKeepsTheInvariant _ _ (inv_setPending hinv _) next,
      agrees_note herr hagrees next⟩

/-! ## The output is the last result asked for (R256) -/

theorem asksOutput_cmd (i : Instr) : asksOutput (cmd i) =
    ((canFail i && i != .xfer) || i ∈ [.d160Final, .d160Digest, .extH256]) := by
  simp [asksOutput, cmd, commandMove, decode_encode]

theorem asksOutput_of_no_command (hc : ∀ v, m ≠ .write 4 0x0000 v) (hr : m ≠ .reset) :
    asksOutput m = false := by
  cases m with
  | read => rfl
  | write width off v =>
    by_contra ha
    simp only [asksOutput, Bool.not_eq_false, Bool.and_eq_true, beq_iff_eq] at ha
    obtain ⟨⟨rfl, rfl⟩, -⟩ := ha
    exact hc v rfl
  | reset => exact absurd rfl hr

theorem asksOutput_illegal {v : Word} {e : DecodeError} (hd : decode v = .error e) :
    asksOutput (.write 4 0x0000 v) = true := by
  simp [asksOutput, hd]

/-- A command that asked for an output has passed, if the true standing of OBUF is sound then. -/
theorem errCode_of_asksOutput_cmd {k : Standing} (h : exec i s = .next t)
    (ha : asksOutput (cmd i) = true) (hk : (k.ended i (t.errCode == 0)).output = .sound) :
    t.errCode = 0 := by
  by_contra hne
  have hfail : canFail i = true := by
    by_contra hc
    exact hne (errCode_of_canFail_eq_false h (by simpa using hc))
  have hx : i ≠ .xfer := by
    rintro rfl
    simp [asksOutput_cmd] at ha
  rw [beq_false_of_ne hne, Standing.ended, hfail] at hk
  simp [Standing.failed, hx] at hk

/-- A command that asks for no output writes none, and so leaves OBUF as it was. -/
theorem obuf_of_not_asksOutput_cmd (h : exec i s = .next t) (ha : asksOutput (cmd i) = false) :
    t.obuf = s.obuf := by
  have hw : writesOut i = false := by
    revert ha
    rw [asksOutput_cmd]
    cases i <;> simp [canFail, writesOut]
  rcases exec_cases i s with ⟨c, hk⟩ | ⟨u, hu, hS⟩
  · obtain rfl := Host.Outcome.next.inj (hk ▸ h)
    rfl
  · obtain rfl := Host.Outcome.next.inj (hu ▸ h)
    exact hS.output hw

/-- And the standing of OBUF stays what it was, whether the command passed or not. -/
theorem output_ended_of_not_asksOutput (k : Standing) (ok : Bool)
    (ha : asksOutput (cmd i) = false) :
    (k.ended i ok).output = k.output := by
  rw [asksOutput_cmd] at ha
  cases i with
  | d160Init | d160Update | xfer | clrerr | iclr => cases ok <;> rfl
  | d160Final | d160Digest | b58Enc | b58Dec | chkAttach | chkVerify | kfFormat | kfCompress
  | drvAddr | drvWif | impWif | extH256 => simp [canFail] at ha

/-- A move that asks for an output ends with code 0, if the true standing of OBUF is sound then. -/
theorem errCode_of_asksOutput {k : Standing} (h : step (s.setPending [m]) = .next t)
    (ha : asksOutput m = true) (hk : (k.after m t).output = .sound) : t.errCode = 0 := by
  rcases step_move_cases h with ⟨width, off, v, rfl, -⟩ | ⟨hc, hr, -⟩ | ⟨i, u, rfl, hrun, hb⟩ |
    ⟨v, e, rfl, hd, -⟩ | ⟨rfl, hb⟩
  · cases ha
  · cases (asksOutput_of_no_command hc hr).symm.trans ha
  · obtain ⟨-, -, -, hcode, -⟩ := hb
    rw [after_cmd, hcode] at hk
    exact hcode.trans (errCode_of_asksOutput_cmd hrun ha hk)
  · rw [after_illegal k hd] at hk
    cases hk
  · obtain ⟨-, -, -, hcode, -⟩ := hb
    exact hcode

/-- Any other move leaves OBUF and its true standing as they were. -/
theorem output_of_not_asksOutput (k : Standing) (h : step (s.setPending [m]) = .next t)
    (ha : asksOutput m = false) : t.obuf = s.obuf ∧ (k.after m t).output = k.output := by
  rcases step_move_cases h with ⟨width, off, v, rfl, -, ⟨-, -, hobuf, -, -⟩, -⟩ |
    ⟨hc, hr, ⟨B, -, -, hobuf, -, -⟩, -⟩ | ⟨i, u, rfl, hrun, -, -, hobuf, -, -⟩ |
    ⟨v, e, rfl, hd, -⟩ | ⟨rfl, -⟩
  · exact ⟨hobuf, rfl⟩
  · exact ⟨hobuf, congrArg Standing.output (after_of_no_command hc hr k t)⟩
  · refine ⟨hobuf.trans (obuf_of_not_asksOutput_cmd hrun ha), ?_⟩
    rw [after_cmd]
    exact output_ended_of_not_asksOutput k _ ha
  · cases (asksOutput_illegal hd).symm.trans ha
  · cases ha

/-- Along a run OBUF is, while its true standing is sound, what the last move that asked for an
output left there, with code 0. -/
theorem output_of_dutifulRun {d' : Ledger} {s' : State} {h : List Event}
    (hr : DutifulRun d s h d' s') (hk : (truth.afterAll h).output = .sound) {e : Event}
    (he : h.find? (fun e => asksOutput e.move) = some e) :
    e.after.errCode = 0 ∧ s'.obuf = e.after.obuf := by
  induction hr with
  | refl => cases he
  | @move _ _ s' t h m _ _ next ih =>
    cases ha : asksOutput m with
    | true =>
      simp only [List.find?_cons, ha] at he
      obtain rfl := Option.some.inj he
      exact ⟨errCode_of_asksOutput next ha hk, rfl⟩
    | false =>
      obtain ⟨hobuf, hout⟩ := output_of_not_asksOutput (truth.afterAll h) next ha
      simp only [List.find?_cons, ha] at he
      obtain ⟨hcode, hlast⟩ := ih (hout ▸ hk) he
      exact ⟨hcode, hobuf.trans hlast⟩

/-! ## What the duties leave of the stream's commands (R254) -/

theorem moveAllowed_cmd (i : Instr) : moveAllowed d s (cmd i) = commandAllowed d s i := by
  simp [moveAllowed, cmd, commandMove, decode_encode]

theorem stream_of_writesStream_eq_false (h : exec i s = .next t) (hw : writesStream i = false) :
    t.stream = s.stream := by
  rcases exec_cases i s with ⟨c, hk⟩ | ⟨u, hu, hS⟩
  · obtain rfl := Host.Outcome.next.inj (hk ▸ h)
    rfl
  · obtain rfl := Host.Outcome.next.inj (hu ▸ h)
    exact hS.stream hw

/-- Within a message neither D160.DIGEST nor DRV.ADDR is allowed, and without one they leave the
initial stream as it is. -/
theorem mem_of_stream_ne (ha : d.Agrees truth s) (hm : moveAllowed d s m = true)
    (h : step (s.setPending [m]) = .next t) (hne : t.stream ≠ s.stream) :
    m ∈ [cmd .d160Update, cmd .d160Init, cmd .d160Final, .reset] := by
  obtain ⟨hidle, -, -⟩ := ha
  rcases step_move_cases h with ⟨width, off, v, rfl, -, ⟨hstream, -⟩, -⟩ |
    ⟨-, -, ⟨B, hstream, -⟩, -⟩ | ⟨i, u, rfl, hrun, hstream, -⟩ |
    ⟨v, e, rfl, -, hstream, -⟩ | ⟨rfl, -⟩
  · exact absurd hstream hne
  · exact absurd hstream hne
  · rw [moveAllowed_cmd] at hm
    cases i with
    | d160Init | d160Update | d160Final => simp
    | d160Digest | drvAddr =>
      have hinitial := hidle (by simpa [commandAllowed] using hm)
      exact absurd (hstream.trans ((stream_of_exec hrun hinitial nofun).trans hinitial.symm)) hne
    | b58Enc | b58Dec | chkAttach | chkVerify | kfFormat | kfCompress | drvWif | impWif | xfer
    | clrerr | iclr | extH256 =>
      exact absurd (hstream.trans (stream_of_writesStream_eq_false hrun rfl)) hne
  · exact absurd hstream hne
  · simp

/-- A read of the window needs the last command tested and passed, and a sound result. -/
theorem passed_of_window_allowed {n : Nat} (h : moveAllowed d s (rd (.obufWord n)) = true) :
    d.verdict = .passed ∧ d.known.output = .sound := by
  have hoff : ¬ 0x4000 + 4 * n < 0x4000 := by omega
  have h : (decide (0x4000 + 4 * n < 0x4000) ||
      (d.verdict == .passed && !d.owed && d.known.output == .sound)) = true := h
  simp only [hoff, decide_false, Bool.false_or, Bool.and_eq_true, beq_iff_eq] at h
  obtain ⟨⟨hpassed, -⟩, hsound⟩ := h
  exact ⟨hpassed, hsound⟩

/-- Settles O60: the ledger agrees with the block all along the run (`agrees_of_dutifulRun`), so its
known standing is true, and OBUF is then the last result asked for (`output_of_dutifulRun`). -/
theorem dutifulHostIsNeverMisled : Obligations.DutifulHostIsNeverMisled := by
  intro d d' truth s s' h hs ha hr
  obtain ⟨hinv, hagrees⟩ := agrees_of_dutifulRun hs ha hr
  obtain ⟨-, -, herr⟩ := id hinv
  obtain ⟨hidle, hcode, hdata⟩ := id hagrees
  refine ⟨hinv, hagrees, fun n hn => ?_, fun hm => hidle ?_, fun a hm => hidle ?_,
    fun m t hm hstep => mem_of_stream_ne hagrees hm hstep⟩
  · obtain ⟨hpassed, hsound⟩ := passed_of_window_allowed hn
    obtain ⟨hout, -, -⟩ := Ledger.known_covers herr hdata
    have htruth := hout (.inl hsound)
    exact ⟨hcode (.inl hpassed), htruth, fun e => output_of_dutifulRun hr htruth⟩
  · simpa [moveAllowed_cmd, commandAllowed] using hm
  · simpa [moveAllowed_cmd, commandAllowed] using hm

end Sys2Proof.Machine

/-! # Proofs of the exceptions' statements (spec 60_exceptions.md)

A command ends in one of two ways, which `exec_cases` and `runCommand_cases` name; and no command looks
at the error record a failure leaves. A bus error is the failure of a move, not of a command. -/

namespace Sys2Proof.Machine

variable {s t : State} {v : Word} {i : Instr}

/-! ## How a command ends (R220, R229, R230) -/

/-- Settles O45: a failed command by the one effect of `State.raiseFail`; a successful one has code 0. -/
theorem failureChangesOnlyCodeAndFlag : Obligations.FailureChangesOnlyCodeAndFlag := by
  intro v s
  rcases runCommand_cases v s with ⟨k, hk⟩ | ⟨i, t, -, ht, hs⟩
  · exact ⟨_, hk, k.code_le, fun _ => rfl⟩
  · exact ⟨t, ht, by simp [hs.code], fun hne => absurd hs.code hne⟩

/-- Settles O46: code 0 rules the failure out, and a success leaves the flag unless it is CLRERR's. -/
theorem successKeepsTheStickyFlag : Obligations.SuccessKeepsTheStickyFlag := by
  refine ⟨fun i s t h h0 hi => ?_, fun s t h => ?_⟩
  · rcases exec_cases i s with ⟨k, hk⟩ | ⟨u, hu, hs⟩
    · obtain rfl := Host.Outcome.next.inj (hk ▸ h)
      exact absurd h0 k.code_ne_zero
    · obtain rfl := Host.Outcome.next.inj (hu ▸ h)
      exact hs.flag hi
  · obtain rfl := Host.Outcome.next.inj h
    exact ⟨rfl, rfl⟩

/-! ## After a failure (R232) -/

/-- No command looks at the error record: with another one it leaves the same state, up to the flag. -/
theorem exists_exec_withError (i : Instr) (s : State) (c : Byte) (flag : Bool) :
    ∃ t flag', exec i s = .next t ∧
      exec i { s with errCode := c, errf := flag } = .next { t with errf := flag' } := by
  cases i with
  | d160Init | d160Update | d160Final | d160Digest | impWif | clrerr | iclr | extH256 =>
    exact ⟨_, _, rfl, rfl⟩
  | b58Dec =>
    cases hB : b58Dec s.ibuf with
    | none => exact ⟨_, _, execB58Dec_of_none hB, execB58Dec_of_none hB⟩
    | some B => exact ⟨_, _, execB58Dec_of_some hB, execB58Dec_of_some hB⟩
  | b58Enc | chkAttach | chkVerify | kfFormat | kfCompress | drvAddr | drvWif | xfer =>
    dsimp only [exec, execB58Enc, execChkAttach, execChkVerify, execKfFormat, execKfCompress,
      execDrvAddr, execDrvWif, execXfer]
    split_ifs <;> exact ⟨_, _, rfl, rfl⟩

/-- A CMD write that failed left a state that differs in the error record alone. -/
theorem eq_withError_of_runCommand (h : runCommand v s = .next t) (hne : t.errCode ≠ 0) :
    t = { s with errCode := t.errCode, errf := true } := by
  obtain ⟨u, hu, -, hfail⟩ := failureChangesOnlyCodeAndFlag v s
  obtain rfl := Host.Outcome.next.inj (hu ▸ h)
  exact hfail hne

/-- Settles O49: the failed command changed the error record alone, at which the next one does not look;
and only CLRERR clears the flag it set (`errf_of_exec`). -/
theorem failedCommandLeavesNoTrace : Obligations.FailedCommandLeavesNoTrace := by
  intro v i s t h hne
  have ht := eq_withError_of_runCommand h hne
  obtain ⟨u', flag, hu', hu⟩ := exists_exec_withError i s t.errCode true
  rw [← ht] at hu
  refine ⟨_, u', hu, hu', rfl, rfl, rfl, rfl, fun hi => ?_⟩
  by_contra hclear
  have hflag : t.errf = true := congrArg State.errf ht
  cases hflag.symm.trans (errf_of_exec hu hi (Bool.eq_false_of_not_eq_true hclear))

/-! ## Bus errors (R235) -/

theorem hostMove_write_of_error {width off : Nat} {c : BusCause}
    (h : memWritePort s width off = .error c) : hostMove (.write width off v) s = busError c s := by
  simp [hostMove, hostWrite, h]

/-- Settles O53: a read and a write in error are one `busError`, which follows the host's policy; neither
port looks at the moves the host has still to issue. -/
theorem busErrorStep : Obligations.BusErrorStep := by
  intro s m rest c hp herr
  have hmove : hostMove m (s.setPending rest) = busError c (s.setPending rest) := by
    rcases herr with ⟨width, off, rfl, hread⟩ | ⟨width, off, v, rfl, hwrite⟩
    · exact hostMove_read_of_error (s := s.setPending rest) hread
    · exact hostMove_write_of_error (s := s.setPending rest) hwrite
  rw [step_of_pending hp, hmove]
  refine ⟨fun hon => ?_, fun hstop => busError_of_stops (s := s.setPending rest) hstop c⟩
  rw [busError_of_goesOn (s := s.setPending rest) hon, ← hon]
  rfl

end Sys2Proof.Machine

/-! # Proofs of the reset's and the hazards' statements (spec 70_reset_and_hazards.md)

A state that agrees with another in what a command sees differs from it in the output, the error
record and the host side, so exchanging one of the three at a time joins the two. A loss of input
bytes is followed from a command to a written word, a move and a step. -/

namespace Sys2Proof.Machine

variable {s t : State} {i : Instr}

/-! ## What a command's results depend on (R253) -/

/-- No command but XFER looks at the output: with another one it leaves the same state up to the
output, and a command that delivers one delivers the same. -/
theorem exists_exec_withOutput (i : Instr) (s : State) (B : Bytes) (hB : i = .xfer → B = s.obuf) :
    ∃ t out, exec i s = .next t ∧ exec i { s with obuf := B } = .next { t with obuf := out } ∧
      (writesOut i = true → t.errCode = 0 → out = t.obuf) := by
  have hfail : ∀ {out : Bytes} (k : ErrKind), writesOut i = true → (s.raiseFail k).errCode = 0 →
      out = (s.raiseFail k).obuf := fun k _ h0 => absurd h0 k.code_ne_zero
  cases i with
  | d160Init | d160Update | impWif | clrerr | iclr => exact ⟨_, _, rfl, rfl, nofun⟩
  | d160Final | d160Digest | extH256 => exact ⟨_, _, rfl, rfl, fun _ _ => rfl⟩
  | b58Dec =>
    cases hD : b58Dec s.ibuf with
    | none => exact ⟨_, _, execB58Dec_of_none hD, execB58Dec_of_none hD, hfail _⟩
    | some D => exact ⟨_, _, execB58Dec_of_some hD, execB58Dec_of_some hD, fun _ _ => rfl⟩
  | b58Enc | chkAttach | kfFormat | kfCompress | drvAddr | drvWif =>
    dsimp only [exec, execB58Enc, execChkAttach, execKfFormat, execKfCompress, execDrvAddr, execDrvWif]
    split_ifs
    · exact ⟨_, _, rfl, rfl, hfail _⟩
    · exact ⟨_, _, rfl, rfl, fun _ _ => rfl⟩
  | chkVerify =>
    dsimp only [exec, execChkVerify]
    split_ifs
    · exact ⟨_, _, rfl, rfl, hfail _⟩
    · exact ⟨_, _, rfl, rfl, hfail _⟩
    · exact ⟨_, _, rfl, rfl, fun _ _ => rfl⟩
  | xfer =>
    obtain rfl := hB rfl
    obtain ⟨t, ht, -⟩ := commandsWriteOnlyTheirOwnState .xfer s
    exact ⟨t, t.obuf, ht, ht, nofun⟩

/-- Settles O48: the output is exchanged first, then the error record (`exists_exec_withError`), then
the host side (`exec_withHost`). -/
theorem resultsDependOnVisibleInputsOnly : Obligations.ResultsDependOnVisibleInputsOnly := by
  rintro i s ⟨_, _, obuf, errCode, errf, host⟩ rfl rfl hout
  obtain ⟨t, out, ht, htout, hsame⟩ := exists_exec_withOutput i s obuf fun hi => (hout hi).symm
  obtain ⟨u, flag, hu, herr⟩ := exists_exec_withError i { s with obuf := obuf } errCode errf
  obtain rfl := Host.Outcome.next.inj (htout.symm.trans hu)
  exact ⟨t, _, ht, exec_withHost i _ host herr, rfl, rfl, rfl, fun hw h0 => (hsame hw h0).symm⟩

/-! ## What takes a byte out of the input (R255) -/

/-- Only ICLR takes a byte out of the input: XFER appends, and no other command writes it. -/
theorem ibuf_prefix_of_exec (h : exec i s = .next t) (hi : i ≠ .iclr) : s.ibuf <+: t.ibuf := by
  by_cases hx : i = .xfer
  · subst hx
    rcases le_or_gt (s.ibuf.length + s.obuf.length) Config.bufcap with hfits | hexceeds
    · obtain rfl := Host.Outcome.next.inj ((execXfer_of_fits hfits).symm.trans h)
      exact List.prefix_append ..
    · obtain rfl := Host.Outcome.next.inj ((execXfer_of_exceeds hexceeds).symm.trans h)
      exact List.prefix_rfl
  · obtain ⟨u, hu, -, hin, -⟩ := commandsWriteOnlyTheirOwnState i s
    obtain rfl := Host.Outcome.next.inj (hu.symm.trans h)
    rw [hin (by simp [hx, hi])]

/-- Of the words written to CMD only ICLR's takes a byte out of the input. -/
theorem ibuf_prefix_of_runCommand {v : Word} (h : runCommand v s = .next t) :
    s.ibuf <+: t.ibuf ∨ v = encode .iclr := by
  cases hd : decode v with
  | error e =>
    obtain rfl := Host.Outcome.next.inj ((runCommand_of_error hd).symm.trans h)
    exact .inl List.prefix_rfl
  | ok i =>
    by_cases hi : i = .iclr
    · exact .inr (hi ▸ decode_eq_ok_iff.mp hd)
    · exact .inl (ibuf_prefix_of_exec ((runCommand_of_ok hd).symm.trans h) hi)

/-- Of the host's moves only the reset and the write of ICLR's word take a byte out of the input. -/
theorem ibuf_prefix_of_hostMove {m : HostMove} (h : hostMove m s = .next t) :
    s.ibuf <+: t.ibuf ∨ m = .reset ∨ m = cmd .iclr := by
  rcases hostMove_cases m s with
    ⟨_, _, v, -, -, hk⟩ | ⟨c, hk⟩ | ⟨v, rfl, hk⟩ | ⟨v, -, -, hk⟩ | ⟨hm, -⟩
  · obtain rfl := Host.Outcome.next.inj (hk ▸ h)
    exact .inl List.prefix_rfl
  · obtain rfl := busError_next (hk ▸ h)
    exact .inl List.prefix_rfl
  · rcases ibuf_prefix_of_runCommand (hk ▸ h) with hin | rfl
    · exact .inl hin
    · exact .inr (.inr rfl)
  · obtain rfl := Host.Outcome.next.inj (hk ▸ h)
    exact .inl (List.prefix_append ..)
  · exact .inr (.inl hm)

/-- Settles O56: an idle step changes nothing, and a move keeps every byte of the input or is one of
the two. -/
theorem inputShrinksOnlyByIclrOrReset : Obligations.InputShrinksOnlyByIclrOrReset := by
  intro s t h
  cases hp : s.host.pending with
  | nil =>
    obtain rfl := Host.Outcome.next.inj (step_of_idle hp ▸ h)
    exact .inl List.prefix_rfl
  | cons m rest =>
    rw [step_of_pending hp] at h
    rcases ibuf_prefix_of_hostMove h with hin | rfl | rfl
    · exact .inl hin
    · exact .inr ⟨rest, .inl rfl⟩
    · exact .inr ⟨rest, .inr rfl⟩

/-! ## The reset (R250, R251) -/

/-- Settles O2: the reset is one move, and each of the three commands clears its own part. -/
theorem resetAndItsSoftwareCounterpart : Obligations.ResetAndItsSoftwareCounterpart := by
  refine ⟨fun s rest hp => step_of_pending hp, fun s => ?_⟩
  rw [runMoves_cmd (decode_encode .d160Init) rfl, runMoves_cmd (decode_encode .iclr) rfl,
    runMoves_singleton (i := .clrerr) rfl]
  exact ⟨_, rfl, rfl, rfl, rfl, rfl, rfl⟩

end Sys2Proof.Machine
